-- ==== Sys2Proof/Word.lean ====
section
/-! DEFINITION. The fixed widths of the block: 32-bit operands, the 67-bit operation word and the widths of the
table entries (00_scope.md R8, R10; 10_state.md R20; 30_encoding.md R62). -/

namespace Sys2Proof

/-- `u32`: the operands `PC` and `next_PC`, the stored `target_PC` and `tag` (00_scope.md R10). -/
abbrev Word := BitVec 32

/-- One operation word of the format `OP67`, bit 0 least significant (30_encoding.md R62, R66). -/
abbrev OpWord := BitVec 67

/-- A 2-bit direction counter, an entry of `PHT` or `LPHT` (10_state.md R23, R25). -/
abbrev Counter2 := BitVec 2

/-- A 3-bit meta counter, an entry of `META` (10_state.md R26). -/
abbrev Counter3 := BitVec 3

/-- An 8-bit local history register, an entry of `LHT` (10_state.md R24, 00_scope.md R8). -/
abbrev LocalHistory := BitVec 8

end Sys2Proof
end

