-- ==== Sys2Proof/Config.lean ====
section
/-! DEFINITION. What is fixed when an instance is constructed (00_scope.md R6, R9; 92_eei_decisions.md, open
parameters). No constant of this file is a number chosen for an implementation: a `Config` is carried by the state,
so every theorem speaks of every instance (log 1). -/

namespace Sys2Proof

/-- Which of the two variants an instance is, for its whole life (00_scope.md R2, R6). -/
inductive Variant where
  | gshare
  | tournament
  deriving DecidableEq, Repr

/-- The parameters as the caller gives them to `new(BTB_size: u32, BHR_size: u32)`, with the choice of class and the
model parameter `META_RESET` (00_scope.md R6; 10_state.md R36). They may be illegal. -/
structure Params where
  variant   : Variant
  btbSize   : Word
  bhrSize   : Word
  metaReset : Nat
  deriving DecidableEq, Repr

/-- The reasons construction is refused, in the order of 60_exceptions.md R131. -/
inductive ConfigError where
  | btbSizeZero
  | btbSizeNotPowerOfTwo
  | historyWidthZero
  | historyWidthTooLarge
  | metaResetOutOfRange
  deriving DecidableEq, Repr

/-- A legal parameter set: `BTB_SIZE = 2^B` with `B` in 0..31, `H` in 1..32, `META_RESET` in 0..7 (00_scope.md R6,
R9). An illegal set has no `Config`. `metaReset` has no meaning in a `gshare` instance, which has no META table. -/
structure Config where
  variant   : Variant
  B         : Nat
  H         : Nat
  metaReset : Counter3
  B_le      : B ≤ 31 := by decide
  H_pos     : 1 ≤ H := by decide
  H_le      : H ≤ 32 := by decide
  deriving DecidableEq, Repr

/-- The instance of the source's own scenario, `GlobalHistoryPredictor` with `BTB_size = 4`, `BHR_size = 2`
(95_test_vectors.md S1): the one instance `State.reset` stands for. DESIGN CHOICE (log 2): the spec gives the
parameters no default but `META_RESET = 0`. -/
def Config.scenario : Config :=
  { variant := .gshare, B := 2, H := 2, metaReset := 0 }

end Sys2Proof
end

