-- ==== Sys2Proof/Syntax.lean ====
section
/-! DEFINITION. The operations of the block. `Op` is what an operation word says (30_encoding.md R60, R63); `Instr`
has one constructor per row of spec/opcode_table.json, where the instance's VARIANT has chosen the row (R69). -/

namespace Sys2Proof

/-- The three operations with their operands (30_encoding.md R60). -/
inductive Op where
  | predict (pc : Word)
  | update (pc nextPc : Word) (taken : Bool)
  | reset
  deriving DecidableEq, Repr

/-- The five rows of the opcode table (30_encoding.md R69). -/
inductive Instr where
  /-- `PREDICT.G` (41_gshare.md R100). -/
  | predictG (pc : Word)
  /-- `UPDATE.G` (41_gshare.md R101). -/
  | updateG (pc nextPc : Word) (taken : Bool)
  /-- `PREDICT.T` (42_tournament.md R110). -/
  | predictT (pc : Word)
  /-- `UPDATE.T` (42_tournament.md R111). -/
  | updateT (pc nextPc : Word) (taken : Bool)
  /-- `RESET` (70_reset_and_hazards.md R150). -/
  | reset
  deriving DecidableEq, Repr

end Sys2Proof
end

