-- ==== Sys2Proof/WellFormed.lean ====
section
/-! DEFINITION. What is well formed: a row belongs to the VARIANT of the instance it is applied to (30_encoding.md R69), and
a parameter set is legal (00_scope.md R9). Every operand value is legal (30_encoding.md R64). -/

namespace Sys2Proof

/-- The row `i` is a row of an instance of variant `v` (30_encoding.md R69). -/
def Instr.wf (v : Variant) (i : Instr) : Bool :=
  match i with
  | .predictG _ => v == .gshare
  | .updateG _ _ _ => v == .gshare
  | .predictT _ => v == .tournament
  | .updateT _ _ _ => v == .tournament
  | .reset => true

/-- The legality conditions of 00_scope.md R9, with the range of `META_RESET` where there is a META table
(60_exceptions.md R131, row 5). -/
def Params.wf (p : Params) : Bool :=
  p.btbSize != 0 && p.btbSize &&& (p.btbSize - 1) == 0
    && decide (1 ≤ p.bhrSize.toNat) && decide (p.bhrSize.toNat ≤ 32)
    && (p.variant == .gshare || decide (p.metaReset ≤ 7))

end Sys2Proof
end

