-- ==== Sys2Proof/Decode.lean ====
section
/-! DEFINITION. Decoding and encoding of the operation word `OP67` (30_encoding.md R62 to R66, R69). Decoding is total:
a word is an operation or is rejected by name. -/

namespace Sys2Proof

/-- Why a word is no operation (30_encoding.md R65). -/
inductive DecodeError where
  /-- Bits 66:65 are `11`: reserved, refused (30_encoding.md R65; 93_implementation_defined.md U5). -/
  | reservedOpcode
  deriving DecidableEq, Repr

/-- The operation named by a row of 30_encoding.md R63. -/
inductive OpName where
  | predict
  | update
  | reset
  deriving DecidableEq, Repr

/-- One row of the table of 30_encoding.md R63. -/
structure OpcodeRow where
  name  : OpName
  match67 : OpWord
  mask67  : OpWord
  deriving DecidableEq, Repr

/-- The rows of 30_encoding.md R63; `opc = 11` has none. -/
def opcodeRows : List OpcodeRow :=
  [ { name := .predict, match67 := 0x00000000000000000, mask67 := 0x60000000000000000 },
    { name := .update,  match67 := 0x20000000000000000, mask67 := 0x60000000000000000 },
    { name := .reset,   match67 := 0x40000000000000000, mask67 := 0x60000000000000000 } ]

/-- "A word `w` is operation X exactly when `(w & mask) == match` for X's row" (30_encoding.md R63). -/
def OpcodeRow.selects (r : OpcodeRow) (w : OpWord) : Bool :=
  (w &&& r.mask67) == r.match67

/-- Field `pc`, bits 31:0 (30_encoding.md R62). -/
def OpWord.pcField (w : OpWord) : Word := w.extractLsb' 0 32

/-- Field `next_pc`, bits 63:32 (30_encoding.md R62). -/
def OpWord.nextPcField (w : OpWord) : Word := w.extractLsb' 32 32

/-- Field `taken`, bit 64, 1 = taken (30_encoding.md R62, R64). -/
def OpWord.takenField (w : OpWord) : Bool := w.getLsbD 64

/-- The operation of a word, its operands taken from their fields verbatim (30_encoding.md R63, R64); the fields an operation
does not use are ignored (R65). -/
def decodeOp (w : OpWord) : Except DecodeError Op :=
  match opcodeRows.find? (fun r => r.selects w) with
  | some r =>
    match r.name with
    | .predict => .ok (.predict (OpWord.pcField w))
    | .update => .ok (.update (OpWord.pcField w) (OpWord.nextPcField w) (OpWord.takenField w))
    | .reset => .ok .reset
  | none => .error .reservedOpcode

/-- The row of the opcode table that an operation is in an instance of variant `v` (30_encoding.md R69). -/
def Op.toInstr (v : Variant) (o : Op) : Instr :=
  match o, v with
  | .predict pc, .gshare => .predictG pc
  | .predict pc, .tournament => .predictT pc
  | .update pc nextPc taken, .gshare => .updateG pc nextPc taken
  | .update pc nextPc taken, .tournament => .updateT pc nextPc taken
  | .reset, _ => .reset

/-- "A decoder selects a row by `(w & mask) == match` together with the instance's `VARIANT`" (30_encoding.md R69). -/
def decode (v : Variant) (w : OpWord) : Except DecodeError Instr :=
  match decodeOp w with
  | .ok o => .ok (o.toInstr v)
  | .error e => .error e

/-- The fields of a word put together: `opc`, `taken`, `next_pc`, `pc` from bit 66 down (30_encoding.md R62). -/
def OpWord.assemble (opc : BitVec 2) (taken : Bool) (nextPc pc : Word) : OpWord :=
  BitVec.ofNat 67 (opc.toNat * 2 ^ 65 + taken.toNat * 2 ^ 64 + nextPc.toNat * 2 ^ 32 + pc.toNat)

/-- The canonical word of an operation: ignored fields are zero (30_encoding.md R63, R65). -/
def encodeOp (o : Op) : OpWord :=
  match o with
  | .predict pc => OpWord.assemble 0b00 false 0 pc
  | .update pc nextPc taken => OpWord.assemble 0b01 taken nextPc pc
  | .reset => OpWord.assemble 0b10 false 0 0

/-- The operation a row stands for; the suffix of the row's name is not encoded (30_encoding.md R69). -/
def Instr.toOp (i : Instr) : Op :=
  match i with
  | .predictG pc => .predict pc
  | .updateG pc nextPc taken => .update pc nextPc taken
  | .predictT pc => .predict pc
  | .updateT pc nextPc taken => .update pc nextPc taken
  | .reset => .reset

/-- The canonical word of a row (30_encoding.md R63, R69). -/
def encode (i : Instr) : OpWord := encodeOp i.toOp

/-- The 67 bits of a table word given in `nbits` bits; bits above `nbits` are 0, and a word has no bit above 66
(30_encoding.md R66; log 8). -/
def OpWord.ofTable (nbits w : Nat) : OpWord := BitVec.ofNat 67 (w % 2 ^ nbits)

/-- What the decoder reads from a table word, in the instance `State.reset` stands for: the table's `.G` and `.T` rows
have the same words, and only the instance's VARIANT tells them apart (30_encoding.md R69; log 8). -/
def decodeTableWord (nbits w : Nat) : Option Instr :=
  match decode Config.scenario.variant (OpWord.ofTable nbits w) with
  | .ok i => some i
  | .error _ => none

end Sys2Proof
end

