-- ==== Sys2Proof/Machine/Flags.lean ====
section
/-! DEFINITION. The block has no flags (10_state.md R29); what it computes in their place: saturating counters, thresholds and
history shifters (40_indexing_and_primitives.md R86 to R91, R97). Each is computed exactly on naturals and narrowed at the
end. -/

namespace Sys2Proof.Machine

/-- `sat2(c, taken) := taken ? min(c + 1, 3) : max(c - 1, 0)` (40_indexing_and_primitives.md R86). Subtraction on naturals
stops at 0. -/
def sat2 (c : Counter2) (taken : Bool) : Counter2 :=
  BitVec.ofNat 2 (if taken then min (c.toNat + 1) 3 else c.toNat - 1)

/-- `meta_up(m) := min(m + 1, 7)` (R87). -/
def metaUp (m : Counter3) : Counter3 := BitVec.ofNat 3 (min (m.toNat + 1) 7)

/-- `meta_down(m) := max(m - 1, 0)` (R87). -/
def metaDown (m : Counter3) : Counter3 := BitVec.ofNat 3 (m.toNat - 1)

/-- `dir2(c) := (c >= 2)` (R88). -/
def dir2 (c : Counter2) : Bool := decide (2 ≤ c.toNat)

/-- `use_gshare(m) := (m >= 4)` (R89). -/
def useGshare (m : Counter3) : Bool := decide (4 ≤ m.toNat)

/-- `shiftH(g, taken) := (2*g + taken) mod 2^H` (R90; 92_eei_decisions.md D17). -/
def shiftH (c : Config) (g : Word) (taken : Bool) : Word :=
  BitVec.ofNat 32 ((2 * g.toNat + taken.toNat) % 2 ^ c.H)

/-- `shift8(l, taken) := (2*l + taken) mod 256` (R91). -/
def shift8 (l : LocalHistory) (taken : Bool) : LocalHistory :=
  BitVec.ofNat 8 ((2 * l.toNat + taken.toNat) % 256)

/-- `post_correct(c, taken) := (dir2(sat2(c, taken)) == taken)` (R97). -/
def postCorrect (c : Counter2) (taken : Bool) : Bool := dir2 (sat2 c taken) == taken

/-- The meta counter after an UPDATE whose sub-predictors were judged `gshareCorrect` and `localCorrect`: it moves only when
exactly one was correct (42_tournament.md R111 step (d)). -/
def metaNext (m : Counter3) (gshareCorrect localCorrect : Bool) : Counter3 :=
  if gshareCorrect && !localCorrect then metaUp m
  else if localCorrect && !gshareCorrect then metaDown m
  else m

end Sys2Proof.Machine
end

