-- ==== Sys2Proof/Machine/Operands.lean ====
section
/-! DEFINITION. Derived constants (00_scope.md R7, R8) and the index and tag derivations (40_indexing_and_primitives.md R80
to R85). An index is an entry number, a `Nat` reached from the masked word. -/

namespace Sys2Proof.Machine

/-- `BTB_SIZE = 2^B` (00_scope.md R6). -/
def btbSize (c : Config) : Nat := 2 ^ c.B

/-- `PHT_SIZE = 2^H` (00_scope.md R7). -/
def phtSize (c : Config) : Nat := 2 ^ c.H

/-- `LPHT_SIZE = 2^8` (00_scope.md R8). -/
def lphtSize : Nat := 256

/-- `btb_mask = BTB_SIZE - 1` (00_scope.md R7). -/
def btbMask (c : Config) : Word := BitVec.ofNat 32 (btbSize c - 1)

/-- `btb_shift = ceil(log2(BTB_SIZE)) = B` (00_scope.md R7). -/
def btbShift (c : Config) : Nat := c.B

/-- `history_mask = 2^H - 1`, the mathematical value (00_scope.md R7; 92_eei_decisions.md D17). -/
def historyMask (c : Config) : Word := BitVec.ofNat 32 (phtSize c - 1)

/-- `lpht_mask = 0xFF` (00_scope.md R8). -/
def lphtMask : LocalHistory := 0xFF

/-- `word := PC >> 2` (40_indexing_and_primitives.md R80). -/
def word (pc : Word) : Word := pc >>> 2

/-- `btb_index := word & btb_mask` (R81). -/
def btbIndex (c : Config) (pc : Word) : Nat := (word pc &&& btbMask c).toNat

/-- The GSHARE tag, `word >> btb_shift` (R82). -/
def tagG (c : Config) (pc : Word) : Word := word pc >>> btbShift c

/-- The TOURNAMENT tag, `PC >> btb_shift` (R82). -/
def tagT (c : Config) (pc : Word) : Word := pc >>> btbShift c

/-- `pht_index := (word ^ GHR) & history_mask` (R83). -/
def phtIndex (c : Config) (ghr pc : Word) : Nat := ((word pc ^^^ ghr) &&& historyMask c).toNat

/-- `lht_index := btb_index` (R84). -/
def lhtIndex (c : Config) (pc : Word) : Nat := btbIndex c pc

/-- `lpht_index := LHT[lht_index] & lpht_mask`, from the LHT entry read (R85). -/
def lphtIndex (entry : LocalHistory) : Nat := (entry &&& lphtMask).toNat

end Sys2Proof.Machine
end

