-- ==== Sys2Proof/Machine/State.lean ====
section
/-! DEFINITION. The state of an instance as plain data (10_state.md R20 to R26), the reasons a step can stop, and the state
after reset (10_state.md R36). -/

namespace Sys2Proof.Machine

/-- A table as a list of (index, entry) pairs, indices strictly rising, no entry equal to what an unlisted index reads as,
which is the entry's reset value (20_memory.md R40, R41; log 5). -/
abbrev Table (α : Type) := List (Nat × α)

/-- An entry of the branch target buffer (10_state.md R21). -/
structure BtbEntry where
  valid    : Bool
  targetPc : Word
  tag      : Word
  deriving DecidableEq, Repr

/-- The complete state of an instance (10_state.md R20) with the model's three fields `cfg`, `pending`, `results`. -/
structure State where
  /-- The construction parameters: constants of the instance (00_scope.md R6), not state (log 1). -/
  cfg     : Config
  /-- `GHR`, `H` bits held in 32 (10_state.md R22; log 9). -/
  ghr     : Word
  /-- `PHT`, `2^H` entries (10_state.md R23). -/
  pht     : Table Counter2
  /-- `BTB`, `BTB_SIZE` entries (10_state.md R21). -/
  btb     : Table BtbEntry
  /-- `LHT`, `BTB_SIZE` entries; nothing is listed in a GSHARE instance (10_state.md R24). -/
  lht     : Table LocalHistory
  /-- `LPHT`, 256 entries; nothing is listed in a GSHARE instance (10_state.md R25). -/
  lpht    : Table Counter2
  /-- `META`, `BTB_SIZE` entries; nothing is listed in a GSHARE instance (10_state.md R26). -/
  metaTab : Table Counter3
  /-- The operation words the host has presented and the block has not run yet, oldest first (20_memory.md R48; log 3). -/
  pending : List OpWord
  /-- The results of the PREDICTs run so far, oldest first: what the host has observed (70_reset_and_hazards.md R162; log 4). -/
  results : List Word
  deriving DecidableEq, Repr

/-- Run-time exceptions: none. "The complete list of exception causes is therefore empty" (60_exceptions.md R130). No
meaning can raise one, by typing. -/
inductive Fault where
  deriving DecidableEq, Repr

/-- Why a step is not taken, or no instance exists. -/
inductive Refusal where
  /-- Raised by an arm of `exec` whose row has no meaning yet: none has (safe). -/
  | notModelled (mnemonic : String)
  /-- Raised by `step` for a word with `opc = 11`: "refuses such a word" (30_encoding.md R65). Safe. -/
  | reservedOpcode
  /-- Raised by `construct` for an illegal parameter set: no instance exists (60_exceptions.md R131). Safe. -/
  | configError (reason : ConfigError)
  /-- Raised by the meaning of a row of the other VARIANT: the spec gives the instance no such operation (30_encoding.md
  R69). No decoded word leads here (log 6). Safe. -/
  | wrongVariant
  deriving DecidableEq, Repr

/-- The reset state of the instance `c`: every table entry reads as its reset value (10_state.md R36; 70_reset_and_hazards.md
R150, R151), and the host has presented and observed nothing. -/
def State.resetOf (c : Config) : State :=
  { cfg := c, ghr := 0, pht := [], btb := [], lht := [], lpht := [], metaTab := [], pending := [], results := [] }

/-- The machine right after reset, for the instance of the source's own scenario (log 2). -/
def State.reset : State := State.resetOf Config.scenario

end Sys2Proof.Machine
end

