-- ==== Sys2Proof/Machine/Ops.lean ====
section
/-! DEFINITION. The named operations over the tables and registers (20_memory.md R41, R44; 40_indexing_and_primitives.md R92
to R94). The block takes no exception and returns from none (60_exceptions.md R130, R134, R135), so there is no exception
entry here; the one shared operation over the whole state is the clearing of every table (70_reset_and_hazards.md R150). -/

namespace Sys2Proof.Machine

/-- `T[i]`: an unlisted entry reads as `d`, its reset value (20_memory.md R41; log 5). -/
def Table.read {α : Type} (d : α) (t : Table α) (i : Nat) : α :=
  match t with
  | [] => d
  | (j, v) :: rest => if j = i then v else Table.read d rest i

/-- Put the entry `(i, v)` before the first listed index above `i`. -/
def Table.insert {α : Type} (i : Nat) (v : α) (t : Table α) : Table α :=
  match t with
  | [] => [(i, v)]
  | (j, w) :: rest => if i < j then (i, v) :: (j, w) :: rest else (j, w) :: Table.insert i v rest

/-- `T[i] <- v`, keeping the canonical form: an entry equal to `d` is not listed (20_memory.md R41; log 5). -/
def Table.write {α : Type} [DecidableEq α] (d : α) (t : Table α) (i : Nat) (v : α) : Table α :=
  if v = d then t.filter (fun e => e.1 ≠ i)
  else Table.insert i v (t.filter (fun e => e.1 ≠ i))

/-- The canonical form of a table of `size` entries: indices strictly rising and in range, no listed entry equal to `d`. -/
abbrev Table.wf {α : Type} (d : α) (size : Nat) (t : Table α) : Prop :=
  t.Pairwise (fun a b => a.1 < b.1) ∧ (∀ e ∈ t, e.1 < size ∧ e.2 ≠ d)

/-- The reset value of a BTB entry (10_state.md R36). -/
def BtbEntry.reset : BtbEntry := { valid := false, targetPc := 0, tag := 0 }

/-- `PHT[i]`; reset value 0 (10_state.md R23, R36). -/
def State.phtAt (s : State) (i : Nat) : Counter2 := Table.read 0 s.pht i

/-- `BTB[i]` (10_state.md R21, R36). -/
def State.btbAt (s : State) (i : Nat) : BtbEntry := Table.read BtbEntry.reset s.btb i

/-- `LHT[i]`; reset value 0 (10_state.md R24, R36). -/
def State.lhtAt (s : State) (i : Nat) : LocalHistory := Table.read 0 s.lht i

/-- `LPHT[i]`; reset value 0 (10_state.md R25, R36). -/
def State.lphtAt (s : State) (i : Nat) : Counter2 := Table.read 0 s.lpht i

/-- `META[i]`; reset value `META_RESET` (10_state.md R26, R36). -/
def State.metaAt (s : State) (i : Nat) : Counter3 := Table.read s.cfg.metaReset s.metaTab i

/-- `PHT[i] <- v`. -/
def State.writePht (s : State) (i : Nat) (v : Counter2) : State :=
  { s with pht := Table.write 0 s.pht i v }

/-- `BTB[i] <- e`, all three fields at once (10_state.md R21). -/
def State.writeBtb (s : State) (i : Nat) (e : BtbEntry) : State :=
  { s with btb := Table.write BtbEntry.reset s.btb i e }

/-- `LHT[i] <- v`. -/
def State.writeLht (s : State) (i : Nat) (v : LocalHistory) : State :=
  { s with lht := Table.write 0 s.lht i v }

/-- `LPHT[i] <- v`. -/
def State.writeLpht (s : State) (i : Nat) (v : Counter2) : State :=
  { s with lpht := Table.write 0 s.lpht i v }

/-- `META[i] <- v`. -/
def State.writeMeta (s : State) (i : Nat) (v : Counter3) : State :=
  { s with metaTab := Table.write s.cfg.metaReset s.metaTab i v }

/-- `GHR <- g`. -/
def State.setGhr (s : State) (g : Word) : State := { s with ghr := g }

/-- The host samples the result `v` of a PREDICT (30_encoding.md R60, R61; log 4). Nothing of the block changes. -/
def State.emit (s : State) (v : Word) : State := { s with results := s.results ++ [v] }

/-- Every element to its reset value; the parameters and the host's side stay (70_reset_and_hazards.md R150). -/
def State.clear (s : State) : State :=
  { s with ghr := 0, pht := [], btb := [], lht := [], lpht := [], metaTab := [] }

/-- `hit := e.valid AND (e.tag == tag)` (40_indexing_and_primitives.md R92). -/
def btbHit (e : BtbEntry) (tag : Word) : Bool := e.valid && e.tag == tag

/-- `next_PC := (dir AND hit) ? e.target_PC : PC +32 4` (40_indexing_and_primitives.md R94; the sum wraps, R95). -/
def selectNext (pc : Word) (dir : Bool) (tag : Word) (e : BtbEntry) : Word :=
  if dir && btbHit e tag then e.targetPc else pc + 4

/-- The BTB write of an UPDATE: only when taken, and then without looking at the old entry
(40_indexing_and_primitives.md R93). -/
def State.trainBtb (s : State) (taken : Bool) (i : Nat) (tag nextPc : Word) : State :=
  if taken then s.writeBtb i { valid := true, targetPc := nextPc, tag := tag } else s

/-- `PHT[i] <- sat2(PHT[i], taken)` (40_indexing_and_primitives.md R86). -/
def State.trainPht (s : State) (i : Nat) (taken : Bool) : State :=
  s.writePht i (sat2 (s.phtAt i) taken)

/-- `LPHT[i] <- sat2(LPHT[i], taken)` (40_indexing_and_primitives.md R86). -/
def State.trainLpht (s : State) (i : Nat) (taken : Bool) : State :=
  s.writeLpht i (sat2 (s.lphtAt i) taken)

/-- `LHT[i] <- shift8(LHT[i], taken)` (40_indexing_and_primitives.md R91). -/
def State.trainLht (s : State) (i : Nat) (taken : Bool) : State :=
  s.writeLht i (shift8 (s.lhtAt i) taken)

/-- Step (d) of 42_tournament.md R111 on `META[i]`. -/
def State.trainMeta (s : State) (i : Nat) (gshareCorrect localCorrect : Bool) : State :=
  s.writeMeta i (metaNext (s.metaAt i) gshareCorrect localCorrect)

end Sys2Proof.Machine
end

