-- ==== Sys2Proof/Machine/Gshare.lean ====
section
/-! DEFINITION. The GSHARE variant: `PREDICT.G` and `UPDATE.G` (41_gshare.md R100, R101). -/

namespace Sys2Proof.Machine

/-- The direction PREDICT consults: `PHT[pht_index] >= 2` (41_gshare.md R100). -/
def directionG (s : State) (pc : Word) : Bool := dir2 (s.phtAt (phtIndex s.cfg s.ghr pc))

/-- `predict(PC)` on a GSHARE instance (41_gshare.md R100). -/
def predictG (s : State) (pc : Word) : Word :=
  selectNext pc (directionG s pc) (tagG s.cfg pc) (s.btbAt (btbIndex s.cfg pc))

/-- `update(PC, next_PC, taken)` on a GSHARE instance: the counter is the one the OLD `GHR` selects (41_gshare.md R101). -/
def updateG (s : State) (pc nextPc : Word) (taken : Bool) : State :=
  let s1 := s.trainPht (phtIndex s.cfg s.ghr pc) taken
  let s2 := s1.setGhr (shiftH s.cfg s.ghr taken)
  s2.trainBtb taken (btbIndex s.cfg pc) (tagG s.cfg pc) nextPc

/-- `PREDICT.G` (41_gshare.md R100): the result goes to the host, no state is written. A TOURNAMENT instance has no such
row (30_encoding.md R69). -/
def execPredictG (pc : Word) (s : State) : Host.Outcome State Fault Refusal :=
  if s.cfg.variant = .gshare then .next (s.emit (predictG s pc)) else .refused .wrongVariant

/-- `UPDATE.G` (41_gshare.md R101). -/
def execUpdateG (pc nextPc : Word) (taken : Bool) (s : State) : Host.Outcome State Fault Refusal :=
  if s.cfg.variant = .gshare then .next (updateG s pc nextPc taken) else .refused .wrongVariant

end Sys2Proof.Machine
end

