-- ==== Sys2Proof/Machine/Reset.lean ====
section
/-! DEFINITION. RESET and construction (70_reset_and_hazards.md R150, R151; 60_exceptions.md R131). -/

namespace Sys2Proof.Machine

/-- `RESET`, in both variants (70_reset_and_hazards.md R150). -/
def execReset (s : State) : Host.Outcome State Fault Refusal := .next s.clear

/-- `new(BTB_size, BHR_size)`: the reset state of the instance with `B = log2(BTB_SIZE)` (00_scope.md R7;
70_reset_and_hazards.md R151), or no instance at all, the checks in the order of 60_exceptions.md R131. A GSHARE instance has
no META table; its `META_RESET` is not looked at and is kept as 0 (log 10). -/
def construct (p : Params) : Host.Outcome State Fault Refusal :=
  if hz : p.btbSize.toNat = 0 then .refused (.configError .btbSizeZero)
  else if p.btbSize &&& (p.btbSize - 1) ≠ 0 then .refused (.configError .btbSizeNotPowerOfTwo)
  else if h0 : p.bhrSize.toNat = 0 then .refused (.configError .historyWidthZero)
  else if h32 : 32 < p.bhrSize.toNat then .refused (.configError .historyWidthTooLarge)
  else if p.variant = .tournament ∧ 7 < p.metaReset then .refused (.configError .metaResetOutOfRange)
  else .next (State.resetOf
    { variant := p.variant
      B := Nat.log2 p.btbSize.toNat
      H := p.bhrSize.toNat
      metaReset := if p.variant = .tournament then BitVec.ofNat 3 p.metaReset else 0
      B_le := Nat.le_of_lt_succ ((Nat.log2_lt hz).2 p.btbSize.isLt)
      H_pos := Nat.one_le_iff_ne_zero.2 h0
      H_le := Nat.le_of_not_lt h32 })

end Sys2Proof.Machine
end

