-- ==== Sys2Proof/Machine/Tournament.lean ====
section
/-! DEFINITION. The TOURNAMENT variant: `PREDICT.T` and `UPDATE.T` (42_tournament.md R110, R111). -/

namespace Sys2Proof.Machine

/-- The global sub-predictor's direction, `PHT[pht_index] >= 2` (42_tournament.md R110). -/
def gsharePred (s : State) (pc : Word) : Bool := dir2 (s.phtAt (phtIndex s.cfg s.ghr pc))

/-- The local sub-predictor's direction, `LPHT[lpht_index] >= 2` (42_tournament.md R110). -/
def localPred (s : State) (pc : Word) : Bool :=
  dir2 (s.lphtAt (lphtIndex (s.lhtAt (lhtIndex s.cfg pc))))

/-- `use_gshare ? gshare_pred : local_pred` (42_tournament.md R110). -/
def directionT (s : State) (pc : Word) : Bool :=
  if useGshare (s.metaAt (btbIndex s.cfg pc)) then gsharePred s pc else localPred s pc

/-- `predict(PC)` on a TOURNAMENT instance (42_tournament.md R110). -/
def predictT (s : State) (pc : Word) : Word :=
  selectNext pc (directionT s pc) (tagT s.cfg pc) (s.btbAt (btbIndex s.cfg pc))

/-- `update(PC, next_PC, taken)` on a TOURNAMENT instance, the steps in the order of 42_tournament.md R111. All indices are
bound from the state before the UPDATE, `lpht_index` among them (R114); step (c) reads the counters step (a) wrote (R115);
`GHR` is not written (R113). -/
def updateT (s : State) (pc nextPc : Word) (taken : Bool) : State :=
  let btbIx := btbIndex s.cfg pc
  let phtIx := phtIndex s.cfg s.ghr pc
  let lhtIx := lhtIndex s.cfg pc
  let lphtIx := lphtIndex (s.lhtAt lhtIx)
  let sa := (s.trainPht phtIx taken).trainLpht lphtIx taken
  let sb := sa.trainLht lhtIx taken
  let gshareCorrect := dir2 (sb.phtAt phtIx) == taken
  let localCorrect := dir2 (sb.lphtAt lphtIx) == taken
  let sd := sb.trainMeta btbIx gshareCorrect localCorrect
  sd.trainBtb taken btbIx (tagT s.cfg pc) nextPc

/-- `PREDICT.T` (42_tournament.md R110): the result goes to the host, no state is written. A GSHARE instance has no such row
(30_encoding.md R69). -/
def execPredictT (pc : Word) (s : State) : Host.Outcome State Fault Refusal :=
  if s.cfg.variant = .tournament then .next (s.emit (predictT s pc)) else .refused .wrongVariant

/-- `UPDATE.T` (42_tournament.md R111). -/
def execUpdateT (pc nextPc : Word) (taken : Bool) (s : State) : Host.Outcome State Fault Refusal :=
  if s.cfg.variant = .tournament then .next (updateT s pc nextPc taken) else .refused .wrongVariant

end Sys2Proof.Machine
end

