-- ==== Sys2Proof/Machine/Dispatch.lean ====
section
/-! DEFINITION. The one dispatch over the rows of the opcode table (30_encoding.md R69). -/

namespace Sys2Proof.Machine

def exec (i : Instr) (s : State) : Host.Outcome State Fault Refusal :=
  match i with
  | .predictG pc => Sys2Proof.Machine.execPredictG pc s
  | .updateG pc nextPc taken => Sys2Proof.Machine.execUpdateG pc nextPc taken s
  | .predictT pc => Sys2Proof.Machine.execPredictT pc s
  | .updateT pc nextPc taken => Sys2Proof.Machine.execUpdateT pc nextPc taken s
  | .reset => Sys2Proof.Machine.execReset s

end Sys2Proof.Machine
end

