-- ==== Sys2Proof/Machine/Step.lean ====
section
/-! DEFINITION. One step: the oldest presented word is decoded for the instance's VARIANT and run (20_memory.md R48;
30_encoding.md R62, R69). "One word is one step of the model." -/

namespace Sys2Proof.Machine

/-- With nothing presented the cycle "performs no operation and changes nothing" (30_encoding.md R61); a reserved word is
refused (R65); any other word is taken off the queue and its row is run (R69). -/
def step (s : State) : Host.Outcome State Fault Refusal :=
  match s.pending with
  | [] => .next s
  | w :: rest =>
    match decode s.cfg.variant w with
    | .ok i => exec i { s with pending := rest }
    | .error .reservedOpcode => .refused .reservedOpcode

/-- The host presents a table word so that the next step takes it (log 3, log 8). -/
def State.withFetchWord (s : State) (nbits w : Nat) : State :=
  { s with pending := OpWord.ofTable nbits w :: s.pending }

end Sys2Proof.Machine
end

