-- ==== Sys2Proof/Machine/Sequence.lean ====
section
/-! DEFINITION. Sequences of operations: the state after the `n`-th operation is its transition applied to the state after the
one before (20_memory.md R48). -/

namespace Sys2Proof.Machine

/-- Run the rows `is` in order, stopping at the first that gives no next state (20_memory.md R48). -/
def runInstrs (is : List Instr) (s : State) : Host.Outcome State Fault Refusal :=
  match is with
  | [] => .next s
  | i :: rest =>
    match exec i s with
    | .next t => runInstrs rest t
    | .fault f => .fault f
    | .refused r => .refused r

/-- `n` steps on the presented words, stopping at the first that gives no next state (20_memory.md R48; 30_encoding.md R62). -/
def runSteps (n : Nat) (s : State) : Host.Outcome State Fault Refusal :=
  match n with
  | 0 => .next s
  | n + 1 =>
    match step s with
    | .next t => runSteps n t
    | .fault f => .fault f
    | .refused r => .refused r

/-- Run operations on an instance: its VARIANT gives each its row (30_encoding.md R69). -/
def runOps (ops : List Op) (s : State) : Host.Outcome State Fault Refusal :=
  runInstrs (ops.map (Op.toInstr s.cfg.variant)) s

end Sys2Proof.Machine
end

