-- ==== Sys2Proof/Machine/Trace.lean ====
section
/-! DEFINITION. The text syntax of traces and the pseudo-operations (30_encoding.md R67). A line is a list of characters. What
the spec leaves open of the syntax (spacing, letter case, rejected lines) is log 12. -/

namespace Sys2Proof.Machine

/-- One line of a trace (30_encoding.md R67). `predict` carries the result a listing writes after `->`, if any. -/
inductive TraceLine where
  | config (p : Params)
  | reset
  | predict (pc : Word) (expected : Option Word)
  | update (pc nextPc : Word) (taken : Bool)
  /-- The pseudo-operation `taken <pc>, <target>`. -/
  | takenTo (pc target : Word)
  /-- The pseudo-operation `nottaken <pc>`. -/
  | notTaken (pc : Word)
  deriving DecidableEq, Repr

/-- Why a text is no trace. -/
inductive TraceError where
  /-- The line has none of the forms of 30_encoding.md R67. -/
  | unreadable
  /-- The trace does not begin with a `config` line, so it names no instance. -/
  | noConfig
  /-- A `config` line after the first: an instance is one variant for its whole life (00_scope.md R2). -/
  | laterConfig
  /-- Construction was refused (60_exceptions.md R131). -/
  | refusedConfig (r : Refusal)
  deriving DecidableEq, Repr

/-- The one operation a line stands for; `config` is none (30_encoding.md R67). -/
def TraceLine.toOp? (l : TraceLine) : Option Op :=
  match l with
  | .config _ => none
  | .reset => some .reset
  | .predict pc _ => some (.predict pc)
  | .update pc nextPc taken => some (.update pc nextPc taken)
  | .takenTo pc target => some (.update pc target true)
  | .notTaken pc => some (.update pc (pc + 4) false)

/-- The value of a hexadecimal digit, of either case. -/
def hexDigit? (c : Char) : Option Nat :=
  let n := c.toNat
  if 48 ≤ n ∧ n ≤ 57 then some (n - 48)
  else if 65 ≤ n ∧ n ≤ 70 then some (n - 55)
  else if 97 ≤ n ∧ n ≤ 102 then some (n - 87)
  else none

/-- The value of digits in base `base`, most significant first, after the value `acc` of the digits before them. -/
def digits? (base acc : Nat) (cs : List Char) : Option Nat :=
  match cs with
  | [] => some acc
  | c :: rest =>
    match hexDigit? c with
    | some d => if d < base then digits? base (acc * base + d) rest else none
    | none => none

/-- "Numbers are hexadecimal with `0x` or decimal" (30_encoding.md R67). -/
def number? (cs : List Char) : Option Nat :=
  match cs with
  | [] => none
  | ['0', 'x'] => none
  | '0' :: 'x' :: rest => digits? 16 0 rest
  | c :: rest => digits? 10 0 (c :: rest)

/-- A number that is a `u32` (00_scope.md R10). -/
def u32? (cs : List Char) : Option Word :=
  match number? cs with
  | some n => if n < 2 ^ 32 then some (BitVec.ofNat 32 n) else none
  | none => none

/-- A piece of text, unless it is empty. -/
def pieceOf (cur : List Char) : List (List Char) :=
  match cur with
  | [] => []
  | c :: rest => [c :: rest]

/-- The pieces of a line: separated by spaces and tabs, a comma being a piece of its own; `;` starts a comment
(30_encoding.md R67). `cur` is the piece being read. -/
def pieces (cur : List Char) (cs : List Char) : List (List Char) :=
  match cs with
  | [] => pieceOf cur
  | c :: rest =>
    if c = ';' then pieceOf cur
    else if c = ' ' ∨ c = '\t' then pieceOf cur ++ pieces [] rest
    else if c = ',' then pieceOf cur ++ [','] :: pieces [] rest
    else pieces (cur ++ [c]) rest

/-- What follows `name` at the start of a piece, such as the `4` of `BTB_SIZE=4`. -/
def after? (name cs : List Char) : Option (List Char) :=
  match name, cs with
  | [], cs => some cs
  | _ :: _, [] => none
  | n :: name, c :: cs => if n = c then after? name cs else none

/-- The letter `T` or `N` of an `update` line. -/
def takenLetter? (cs : List Char) : Option Bool :=
  match cs with
  | ['T'] => some true
  | ['N'] => some false
  | _ => none

/-- `GSHARE` or `TOURNAMENT`. -/
def variant? (cs : List Char) : Option Variant :=
  if cs = ['G', 'S', 'H', 'A', 'R', 'E'] then some .gshare
  else if cs = ['T', 'O', 'U', 'R', 'N', 'A', 'M', 'E', 'N', 'T'] then some .tournament
  else none

/-- The parameters of a `config` line; `META_RESET` is 0 where the line gives none (92_eei_decisions.md D13). -/
def configLine? (v size h : List Char) (m : Option (List Char)) : Option TraceLine := do
  let variant ← variant? v
  let btb ← u32? (← after? ['B', 'T', 'B', '_', 'S', 'I', 'Z', 'E', '='] size)
  let bhr ← u32? (← after? ['H', '='] h)
  let metaReset ←
    match m with
    | none => some 0
    | some cs => (after? ['M', 'E', 'T', 'A', '_', 'R', 'E', 'S', 'E', 'T', '='] cs).bind number?
  pure (.config { variant := variant, btbSize := btb, bhrSize := bhr, metaReset := metaReset })

/-- The line that the pieces are, by its first piece (30_encoding.md R67). -/
def lineOfPieces? (ps : List (List Char)) : Option TraceLine :=
  match ps with
  | [['r', 'e', 's', 'e', 't']] => some .reset
  | [['p', 'r', 'e', 'd', 'i', 'c', 't'], pc] => (u32? pc).map (fun p => .predict p none)
  | [['p', 'r', 'e', 'd', 'i', 'c', 't'], pc, ['-', '>'], v] => do
    pure (.predict (← u32? pc) (some (← u32? v)))
  | [['u', 'p', 'd', 'a', 't', 'e'], pc, [','], nextPc, [','], t] => do
    pure (.update (← u32? pc) (← u32? nextPc) (← takenLetter? t))
  | [['t', 'a', 'k', 'e', 'n'], pc, [','], target] => do
    pure (.takenTo (← u32? pc) (← u32? target))
  | [['n', 'o', 't', 't', 'a', 'k', 'e', 'n'], pc] => (u32? pc).map .notTaken
  | [['c', 'o', 'n', 'f', 'i', 'g'], v, size, h] => configLine? v size h none
  | [['c', 'o', 'n', 'f', 'i', 'g'], v, size, h, m] => configLine? v size h (some m)
  | _ => none

/-- A line of text: nothing (blank or comment only), a trace line, or unreadable (30_encoding.md R67). -/
def parseLine (cs : List Char) : Except TraceError (Option TraceLine) :=
  match pieces [] cs with
  | [] => .ok none
  | p :: ps =>
    match lineOfPieces? (p :: ps) with
    | some l => .ok (some l)
    | none => .error .unreadable

/-- A text, "one operation per line, executed top to bottom" (30_encoding.md R67). -/
def parseTrace (lines : List (List Char)) : Except TraceError (List TraceLine) :=
  match lines with
  | [] => .ok []
  | l :: rest =>
    match parseLine l, parseTrace rest with
    | .ok (some t), .ok ts => .ok (t :: ts)
    | .ok none, .ok ts => .ok ts
    | .error e, _ => .error e
    | .ok _, .error e => .error e

/-- The operations of the lines after the `config` line. -/
def traceOps (ls : List TraceLine) : Except TraceError (List Op) :=
  match ls with
  | [] => .ok []
  | l :: rest =>
    match l.toOp?, traceOps rest with
    | some o, .ok os => .ok (o :: os)
    | none, _ => .error .laterConfig
    | some _, .error e => .error e

/-- A trace made ready to run: the `config` line names the instance "and implies reset state"; the words of the other lines
are presented in order (30_encoding.md R67). -/
def loadTrace (ls : List TraceLine) : Except TraceError State :=
  match ls with
  | .config p :: rest =>
    match construct p, traceOps rest with
    | .next s, .ok os => .ok { s with pending := os.map encodeOp }
    | .next _, .error e => .error e
    | .refused r, _ => .error (.refusedConfig r)
    | .fault f, _ => nomatch f
  | _ => .error .noConfig

/-- The results a listing states for its `predict` lines, in order (30_encoding.md R67). -/
def expectedResults (ls : List TraceLine) : List (Option Word) :=
  ls.filterMap (fun l =>
    match l with
    | .predict _ expected => some expected
    | _ => none)

/-- The PREDICT results `results` are those a listing states (70_reset_and_hazards.md R162). -/
def agrees (expected : List (Option Word)) (results : List Word) : Bool :=
  match expected, results with
  | [], [] => true
  | none :: es, _ :: rs => agrees es rs
  | some e :: es, r :: rs => e == r && agrees es rs
  | [], _ :: _ => false
  | _ :: _, [] => false

end Sys2Proof.Machine
end

