-- ==== Sys2Proof/Machine/Ports.lean ====
section
/-! DEFINITION. The hardware interface: one clock cycle of the ports of 30_encoding.md R61, and its reading as operations
(R62; 70_reset_and_hazards.md R155). -/

namespace Sys2Proof.Machine

/-- The input ports during one cycle; `clk` is the cycle itself (30_encoding.md R61). -/
structure Ports where
  rst       : Bool
  predPc    : Word
  updValid  : Bool
  updPc     : Word
  updNextPc : Word
  updTaken  : Bool
  deriving DecidableEq, Repr

/-- `predict` of the instance's variant (00_scope.md R14; 30_encoding.md R69). -/
def predict (s : State) (pc : Word) : Word :=
  match s.cfg.variant with
  | .gshare => predictG s pc
  | .tournament => predictT s pc

/-- `update` of the instance's variant (00_scope.md R14; 30_encoding.md R69). -/
def update (s : State) (pc nextPc : Word) (taken : Bool) : State :=
  match s.cfg.variant with
  | .gshare => updateG s pc nextPc taken
  | .tournament => updateT s pc nextPc taken

/-- The output port `pred_next_pc`: always driven, "a combinational function of `pred_pc` and the current state"
(30_encoding.md R61). -/
def predNextPc (s : State) (p : Ports) : Word := predict s p.predPc

/-- The rising edge of `clk`: RESET wins over a simultaneous UPDATE; with neither the state is unchanged
(30_encoding.md R61; 60_exceptions.md R133). -/
def clockEdge (s : State) (p : Ports) : State :=
  if p.rst then s.clear
  else if p.updValid then update s p.updPc p.updNextPc p.updTaken
  else s

/-- One cycle in which the host does (`sampled`) or does not use `pred_next_pc`, which is read before the edge
(70_reset_and_hazards.md R155). -/
def cycle (s : State) (p : Ports) (sampled : Bool) : State :=
  clockEdge (if sampled then s.emit (predNextPc s p) else s) p

/-- The operations of a cycle in their order: the PREDICT first, then RESET or else UPDATE (70_reset_and_hazards.md R155;
30_encoding.md R61). -/
def cycleOps (p : Ports) (sampled : Bool) : List Op :=
  (if sampled then [.predict p.predPc] else []) ++
    (if p.rst then [.reset]
     else if p.updValid then [.update p.updPc p.updNextPc p.updTaken]
     else [])

/-- The ports for one operation (30_encoding.md R62). A port the rule does not name is driven 0 (log 11). -/
def opPorts (o : Op) : Ports :=
  match o with
  | .predict pc =>
    { rst := false, predPc := pc, updValid := false, updPc := 0, updNextPc := 0, updTaken := false }
  | .update pc nextPc taken =>
    { rst := false, predPc := 0, updValid := true, updPc := pc, updNextPc := nextPc, updTaken := taken }
  | .reset =>
    { rst := true, predPc := 0, updValid := false, updPc := 0, updNextPc := 0, updTaken := false }

/-- Whether the host samples `pred_next_pc` in the cycle of an operation: only in a PREDICT (30_encoding.md R62). -/
def opSampled (o : Op) : Bool :=
  match o with
  | .predict _ => true
  | .update _ _ _ => false
  | .reset => false

end Sys2Proof.Machine
end

