-- ==== Sys2Proof/Safety.lean ====
section
/-! DEFINITION. What claims about runs are stated in: the invariant of an instance, the states an instance reaches, and the
one way a step can stop. -/

namespace Sys2Proof.Machine

/-- One more than the largest tag a PC of the instance has (10_state.md R37). -/
def tagBound (c : Config) : Nat :=
  match c.variant with
  | .gshare => 2 ^ (30 - c.B)
  | .tournament => 2 ^ (32 - c.B)

/-- The tables are in canonical form and every listed index is in range (20_memory.md R41; log 5). -/
abbrev State.tablesWf (s : State) : Prop :=
  Table.wf 0 (phtSize s.cfg) s.pht ∧ Table.wf BtbEntry.reset (btbSize s.cfg) s.btb ∧
  Table.wf 0 (btbSize s.cfg) s.lht ∧ Table.wf 0 lphtSize s.lpht ∧
  Table.wf s.cfg.metaReset (btbSize s.cfg) s.metaTab

/-- A listed BTB entry has been written by a taken UPDATE: it is valid and its tag is one a PC has (10_state.md R21, R37). -/
abbrev State.btbTrained (s : State) : Prop :=
  ∀ e ∈ s.btb, e.2.valid = true ∧ e.2.tag.toNat < tagBound s.cfg

/-- "A GSHARE instance has no `LHT`, `LPHT` or `META`" (10_state.md R20). -/
abbrev State.noLocalTables (s : State) : Prop :=
  s.cfg.variant = .gshare → s.lht = [] ∧ s.lpht = [] ∧ s.metaTab = []

/-- The invariant of an instance: `GHR` within its width (10_state.md R32), 0 in TOURNAMENT (R33), and the table forms. -/
abbrev State.Inv (s : State) : Prop :=
  s.ghr.toNat < 2 ^ s.cfg.H ∧ (s.cfg.variant = .tournament → s.ghr = 0) ∧
  s.tablesWf ∧ s.btbTrained ∧ s.noLocalTables

/-- The states of an instance: constructed with legal parameters, then operations presented and run in any number and order
(70_reset_and_hazards.md R151, R159). -/
inductive Reachable : State → Prop
  | constructed {p : Params} {s : State} (h : construct p = .next s) : Reachable s
  | presented {s : State} (w : OpWord) (h : Reachable s) : Reachable { s with pending := s.pending ++ [w] }
  | stepped {s t : State} (h : Reachable s) (hs : step s = .next t) : Reachable t

/-- The next word presented is the reserved one (30_encoding.md R65): the only stop a step has. -/
def State.reservedNext (s : State) : Prop :=
  ∃ w rest, s.pending = w :: rest ∧ w.toNat / 2 ^ 65 = 3

/-- One UPDATE as the host gives it: `PC`, `next_PC`, `taken` (30_encoding.md R60). -/
structure Resolved where
  pc     : Word
  nextPc : Word
  taken  : Bool
  deriving DecidableEq, Repr

/-- The UPDATE operation of a resolved branch. -/
def Resolved.toOp (u : Resolved) : Op := .update u.pc u.nextPc u.taken

/-- In the run of the UPDATEs `us` from `s` on a TOURNAMENT instance, every UPDATE of the site `i` finds the local counter right
and the global counter wrong, each judged after it was trained: `c + 1` and `c - 1` saturating, then `>= 2`
(42_tournament.md R111 steps (a), (c), R116). -/
def localRightGlobalWrong (i : Nat) (us : List Resolved) (s : State) : Prop :=
  match us with
  | [] => True
  | u :: rest =>
    (u.pc.toNat / 4 % 2 ^ s.cfg.B = i →
      postCorrect (s.lphtAt (s.lhtAt i).toNat) u.taken = true ∧
      postCorrect (s.phtAt ((u.pc.toNat / 4 ^^^ s.ghr.toNat) % 2 ^ s.cfg.H)) u.taken = false) ∧
    localRightGlobalWrong i rest (update s u.pc u.nextPc u.taken)

/-- The states differ at most in how their tables are listed and in what invalid BTB entries hold (10_state.md R34, R36). -/
def State.sameUpToInvalid (s t : State) : Prop :=
  s.cfg = t.cfg ∧ s.ghr = t.ghr ∧ s.results = t.results ∧
  (∀ i, s.phtAt i = t.phtAt i) ∧ (∀ i, s.lhtAt i = t.lhtAt i) ∧ (∀ i, s.lphtAt i = t.lphtAt i) ∧
  (∀ i, s.metaAt i = t.metaAt i) ∧
  (∀ i, s.btbAt i = t.btbAt i ∨ ((s.btbAt i).valid = false ∧ (t.btbAt i).valid = false))

end Sys2Proof.Machine
end

