-- ==== Sys2Proof/Certificates/Slice0/Obligations.lean ====
section
/-! DEFINITION. The statements for the provers. Indices, tags, counters and histories are written in arithmetic on naturals,
beside the model's bit operations: `w := PC / 4` is `PC >> 2`, `w % 2^B` is `word & btb_mask`, `_ / 2^B` a shift by
`btb_shift`. -/

open Sys2Proof Sys2Proof.Machine

/-! ### Encoding -/

/-- Words of 95_test_vectors.md V1, one for each row of the opcode table and two non-canonical ones. -/
def Obligations.WrittenOutWordsDecode : Prop :=
  decode .gshare 0x00000000000000100 = .ok (.predictG 0x100) ∧
  decode .tournament 0x000000000FFFFFFFC = .ok (.predictT 0xFFFFFFFC) ∧
  decode .gshare 0x3CAFEF00CDEADBEEC = .ok (.updateG 0xDEADBEEC 0xCAFEF00C true) ∧
  decode .tournament 0x20000010400000100 = .ok (.updateT 0x100 0x104 false) ∧
  decode .gshare 0x40000000000000000 = .ok .reset ∧
  decode .gshare 0x10000123400000100 = .ok (.predictG 0x100) ∧
  decode .tournament 0x5FFFFFFFFFFFFFFFF = .ok .reset ∧
  decode .gshare 0x60000000000000000 = .error .reservedOpcode ∧
  decode .tournament 0x7FFFFFFFFFFFFFFFF = .error .reservedOpcode

/-- 30_encoding.md R63, R64: bits 66:65 choose the operation, every operand is its field verbatim, for every word. -/
def Obligations.DecodeReadsOpcodeAndFields : Prop :=
  ∀ w : OpWord,
    let pc : Word := BitVec.ofNat 32 (w.toNat % 2 ^ 32)
    let nextPc : Word := BitVec.ofNat 32 (w.toNat / 2 ^ 32 % 2 ^ 32)
    let taken : Bool := decide (w.toNat / 2 ^ 64 % 2 = 1)
    (w.toNat / 2 ^ 65 = 0 →
      decode .gshare w = .ok (.predictG pc) ∧ decode .tournament w = .ok (.predictT pc)) ∧
    (w.toNat / 2 ^ 65 = 1 →
      decode .gshare w = .ok (.updateG pc nextPc taken) ∧
      decode .tournament w = .ok (.updateT pc nextPc taken)) ∧
    (w.toNat / 2 ^ 65 = 2 → decode .gshare w = .ok .reset ∧ decode .tournament w = .ok .reset) ∧
    (w.toNat / 2 ^ 65 = 3 →
      decode .gshare w = .error .reservedOpcode ∧ decode .tournament w = .error .reservedOpcode)

/-- Decoding the canonical word of a row of the instance's VARIANT gives the row back, with every operand at every value. -/
def Obligations.DecodeEncodeAgree : Prop :=
  ∀ (v : Variant) (i : Instr), i.wf v = true → decode v (encode i) = .ok i

/-- The other direction: encoding what a word decodes to gives the word with its ignored fields cleared. -/
def Obligations.EncodeDecodeClearsIgnoredFields : Prop :=
  ∀ (v : Variant) (w : OpWord) (i : Instr), decode v w = .ok i →
    (w.toNat / 2 ^ 65 = 0 → (encode i).toNat = w.toNat % 2 ^ 32) ∧
    (w.toNat / 2 ^ 65 = 1 → encode i = w) ∧
    (w.toNat / 2 ^ 65 = 2 → (encode i).toNat = 2 * 2 ^ 65)

/-- 30_encoding.md R65 (its third point is an inference the spec marks as its own): the reserved word is refused; words that
differ only in ignored fields are the same operation; canonical words have them zero; `next_pc` of a not-taken UPDATE is
without effect; every other word is an operation. -/
def Obligations.ReservedRefusedAndIgnoredFieldsIgnored : Prop :=
  (∀ (s : State) (w : OpWord) (rest : List OpWord), s.pending = w :: rest → w.toNat / 2 ^ 65 = 3 →
    step s = .refused .reservedOpcode) ∧
  (∀ (v : Variant) (w w' : OpWord), w.toNat / 2 ^ 65 = 0 → w'.toNat / 2 ^ 65 = 0 →
    w.toNat % 2 ^ 32 = w'.toNat % 2 ^ 32 → decode v w = decode v w') ∧
  (∀ (v : Variant) (w w' : OpWord), w.toNat / 2 ^ 65 = 2 → w'.toNat / 2 ^ 65 = 2 →
    decode v w = decode v w') ∧
  (∀ pc : Word, (encode (.predictG pc)).toNat = pc.toNat ∧ (encode (.predictT pc)).toNat = pc.toNat) ∧
  (encode .reset).toNat = 2 * 2 ^ 65 ∧
  (∀ (s : State) (pc n n' : Word), exec (.updateG pc n false) s = exec (.updateG pc n' false) s ∧
    exec (.updateT pc n false) s = exec (.updateT pc n' false) s) ∧
  (∀ (v : Variant) (w : OpWord), w.toNat / 2 ^ 65 ≠ 3 → ∃ i, decode v w = .ok i)

/-! ### The step -/

/-- A step runs the decoded instruction: the oldest presented word is taken off the queue and its row is run; with nothing
presented nothing changes. The queue and the idle step are the model's (log 3). -/
def Obligations.StepRunsPresentedWord : Prop :=
  ∀ s : State,
    (∀ (w : OpWord) (rest : List OpWord) (i : Instr),
      s.pending = w :: rest → decode s.cfg.variant w = .ok i →
      step s = exec i { s with pending := rest }) ∧
    (s.pending = [] → step s = .next s)

/-- 60_exceptions.md R130: no fault; PREDICT returns a value, UPDATE and RESET produce a next state, whatever the state and the
operands. The one word that gives no next state is the reserved one. -/
def Obligations.StepNeverFaults : Prop :=
  ∀ s : State,
    (∀ f, step s ≠ .fault f) ∧
    (s.reservedNext ↔ ∃ r, step s = .refused r) ∧
    (∀ w rest, s.pending = w :: rest → w.toNat / 2 ^ 65 ≠ 3 →
      ∃ t, step s = .next t ∧
        t.results.length = s.results.length + (if w.toNat / 2 ^ 65 = 0 then 1 else 0))

/-- A row of the other VARIANT has no meaning in an instance and is refused by name, by every form of it (log 6). -/
def Obligations.OtherVariantRowRefused : Prop :=
  ∀ (s : State) (pc nextPc : Word) (taken : Bool),
    (s.cfg.variant = .tournament →
      exec (.predictG pc) s = .refused .wrongVariant ∧
      exec (.updateG pc nextPc taken) s = .refused .wrongVariant) ∧
    (s.cfg.variant = .gshare →
      exec (.predictT pc) s = .refused .wrongVariant ∧
      exec (.updateT pc nextPc taken) s = .refused .wrongVariant)

/-- The construction parameters are constants of the instance: no step changes them (00_scope.md R6; log 1). -/
def Obligations.StepKeepsParameters : Prop :=
  ∀ s t : State, step s = .next t → t.cfg = s.cfg

/-- Operations form one total order: a sequence always completes, and its effect is that of its parts one after the other
(20_memory.md R48; 00_scope.md R14). -/
def Obligations.OperationSequencesComplete : Prop :=
  ∀ (ops : List Op) (s : State), ∃ t, runOps ops s = .next t ∧ t.cfg = s.cfg ∧
    t.pending = s.pending ∧ ∀ more : List Op, runOps (ops ++ more) s = runOps more t

/-! ### Primitives -/

/-- 40_indexing_and_primitives.md R80, R81, R83, R84, R85: the index derivations, each index in its table. Two clauses are
inferences the spec marks [derived]: the form of `pht_index` for a `GHR` within its width (R83) and `lpht_index` being the
local history itself (R85). -/
def Obligations.IndicesAreMaskedIntoRange : Prop :=
  ∀ (c : Config) (g pc : Word) (e : LocalHistory),
    (word pc).toNat = pc.toNat / 4 ∧ (word pc).toNat ≤ 2 ^ 30 - 1 ∧
    btbIndex c pc = pc.toNat / 4 % 2 ^ c.B ∧ btbIndex c pc ≤ 2 ^ c.B - 1 ∧ btbIndex c pc ≤ 2 ^ 30 - 1 ∧
    (c.B = 0 → btbIndex c pc = 0) ∧
    phtIndex c g pc = (pc.toNat / 4 ^^^ g.toNat) % 2 ^ c.H ∧ phtIndex c g pc ≤ 2 ^ c.H - 1 ∧
    (g.toNat < 2 ^ c.H → phtIndex c g pc = pc.toNat / 4 % 2 ^ c.H ^^^ g.toNat) ∧
    lhtIndex c pc = btbIndex c pc ∧ lphtIndex e = e.toNat ∧ lphtIndex e ≤ 255

/-- 40_indexing_and_primitives.md R86 to R89: saturating counters and thresholds, in exact arithmetic. -/
def Obligations.CountersSaturateAtTheirThresholds : Prop :=
  (∀ (c : Counter2) (k : Bool), (sat2 c k).toNat = if k then min (c.toNat + 1) 3 else c.toNat - 1) ∧
  (∀ m : Counter3, (metaUp m).toNat = min (m.toNat + 1) 7 ∧ (metaDown m).toNat = m.toNat - 1) ∧
  (∀ c : Counter2, (dir2 c = true ↔ 2 ≤ c.toNat) ∧ dir2 c = c.getLsbD 1) ∧
  (∀ m : Counter3, (useGshare m = true ↔ 4 ≤ m.toNat) ∧ useGshare m = m.getLsbD 2)

/-- 40_indexing_and_primitives.md R90, R91: the history shifters in exact arithmetic, and what a run of one outcome leaves: the
old outcomes are gone after as many shifts as the history has bits, at every width, 32 among them. -/
def Obligations.HistoryShiftersDropOldestOutcome : Prop :=
  (∀ (c : Config) (g : Word) (k : Bool),
    (shiftH c g k).toNat = (2 * g.toNat + k.toNat) % 2 ^ c.H ∧
    (c.H = 1 → (shiftH c g k).toNat = k.toNat)) ∧
  (∀ (c : Config) (g : Word) (n : Nat), c.H ≤ n →
    ((fun x => shiftH c x true)^[n] g).toNat = 2 ^ c.H - 1 ∧
    ((fun x => shiftH c x false)^[n] g).toNat = 0) ∧
  (∀ (c : Config) (n : Nat), n ≤ c.H → ((fun x => shiftH c x true)^[n] 0).toNat = 2 ^ n - 1) ∧
  (∀ (l : LocalHistory) (k : Bool), (shift8 l k).toNat = (2 * l.toNat + k.toNat) % 256) ∧
  (∀ (l : LocalHistory) (n : Nat), 8 ≤ n → (fun x => shift8 x true)^[n] l = 0xFF)

/-- 40_indexing_and_primitives.md R82: the two tag functions and which PCs an index and a tag together tell apart (the
consequences are the spec's own inference, marked so). -/
def Obligations.TagsTellSitesApart : Prop :=
  ∀ (c : Config) (p q : Word),
    (tagG c p).toNat = p.toNat / 4 / 2 ^ c.B ∧ (tagT c p).toNat = p.toNat / 2 ^ c.B ∧
    p.toNat / 4 = (tagG c p).toNat * 2 ^ c.B + btbIndex c p ∧
    ((btbIndex c p = btbIndex c q ∧ tagG c p = tagG c q) ↔ p.toNat / 4 = q.toNat / 4) ∧
    (2 ≤ c.B → ((btbIndex c p = btbIndex c q ∧ tagT c p = tagT c q) ↔ p.toNat / 4 = q.toNat / 4)) ∧
    (c.B = 1 → ((btbIndex c p = btbIndex c q ∧ tagT c p = tagT c q) ↔ p.toNat / 2 = q.toNat / 2)) ∧
    (c.B = 0 → ((btbIndex c p = btbIndex c q ∧ tagT c p = tagT c q) ↔ p = q))

/-- 40_indexing_and_primitives.md R96: which PCs and histories share a PHT counter (the spec's own inference, marked
so). -/
def Obligations.PhtAliasingIsXorOfHistory : Prop :=
  ∀ (c : Config) (g g' p q : Word), g.toNat < 2 ^ c.H → g'.toNat < 2 ^ c.H →
    (phtIndex c g p = phtIndex c g' q ↔
      (p.toNat / 4 % 2 ^ c.H ^^^ g.toNat) = (q.toNat / 4 % 2 ^ c.H ^^^ g'.toNat)) ∧
    (phtIndex c g p = phtIndex c g q ↔ p.toNat / 4 % 2 ^ c.H = q.toNat / 4 % 2 ^ c.H)

/-! ### GSHARE -/

/-- `PREDICT.G`, 41_gshare.md R100, in every state of a GSHARE instance: the result; nothing else changes; the same value on the
port; the words that encode it. -/
def Obligations.PredictGTargetOnTakenHitElseSequential : Prop :=
  ∀ (s : State) (pc : Word), s.cfg.variant = .gshare →
    let w := pc.toNat / 4
    let e := s.btbAt (w % 2 ^ s.cfg.B)
    let c := s.phtAt ((w ^^^ s.ghr.toNat) % 2 ^ s.cfg.H)
    let nextPc : Word :=
      if 2 ≤ c.toNat ∧ e.valid = true ∧ e.tag.toNat = w / 2 ^ s.cfg.B then e.targetPc
      else BitVec.ofNat 32 (pc.toNat + 4)
    exec (.predictG pc) s = .next { s with results := s.results ++ [nextPc] } ∧
    (∀ p : Ports, p.predPc = pc → predNextPc s p = nextPc) ∧
    (∀ x : OpWord, x.toNat / 2 ^ 65 = 0 → x.toNat % 2 ^ 32 = pc.toNat →
      decode s.cfg.variant x = .ok (.predictG pc))

/-- `UPDATE.G`, 41_gshare.md R101, in every state of a GSHARE instance: it completes; the counter the old history selects moves
by one, saturating; the outcome is shifted in; the BTB entry is written exactly when taken; everything else is unchanged. -/
def Obligations.UpdateGTrainsOneCounterHistoryAndBtb : Prop :=
  ∀ (s : State) (pc nextPc : Word) (taken : Bool), s.cfg.variant = .gshare →
    let w := pc.toNat / 4
    let bi := w % 2 ^ s.cfg.B
    let pi := (w ^^^ s.ghr.toNat) % 2 ^ s.cfg.H
    ∃ t, exec (.updateG pc nextPc taken) s = .next t ∧
      (∀ j, (t.phtAt j).toNat =
        if j = pi then (if taken then min ((s.phtAt pi).toNat + 1) 3 else (s.phtAt pi).toNat - 1)
        else (s.phtAt j).toNat) ∧
      t.ghr.toNat = (2 * s.ghr.toNat + taken.toNat) % 2 ^ s.cfg.H ∧
      (∀ j, t.btbAt j =
        if taken = true ∧ j = bi then BtbEntry.mk true nextPc (BitVec.ofNat 32 (w / 2 ^ s.cfg.B))
        else s.btbAt j) ∧
      t.lht = s.lht ∧ t.lpht = s.lpht ∧ t.metaTab = s.metaTab ∧
      t.cfg = s.cfg ∧ t.pending = s.pending ∧ t.results = s.results ∧
      (∀ p : Ports, p.rst = false → p.updValid = true → p.updPc = pc → p.updNextPc = nextPc →
        p.updTaken = taken → clockEdge s p = t) ∧
      (∀ x : OpWord, x.toNat / 2 ^ 65 = 1 → x.toNat % 2 ^ 32 = pc.toNat →
        x.toNat / 2 ^ 32 % 2 ^ 32 = nextPc.toNat → x.toNat / 2 ^ 64 % 2 = taken.toNat →
        decode s.cfg.variant x = .ok (.updateG pc nextPc taken))

/-- 41_gshare.md R102: `N` taken UPDATEs of one PC from reset, in every GSHARE instance (the spec's own inference, marked
so, against the source's scenario: 90_conflicts.md C1, C2). -/
def Obligations.TakenRunReachesTargetAfterHPlusTwo : Prop :=
  ∀ (c : Config) (pc target : Word) (n : Nat), c.variant = .gshare →
    ∃ t, runInstrs (List.replicate n (.updateG pc target true)) (State.resetOf c) = .next t ∧
      t.ghr.toNat = 2 ^ min n c.H - 1 ∧
      (t.phtAt ((pc.toNat / 4 ^^^ (2 ^ c.H - 1)) % 2 ^ c.H)).toNat = min (n - c.H) 3 ∧
      (c.H + 2 ≤ n →
        exec (.predictG pc) t = .next { t with results := t.results ++ [target] }) ∧
      (n ≤ c.H + 1 →
        exec (.predictG pc) t =
          .next { t with results := t.results ++ [BitVec.ofNat 32 (pc.toNat + 4)] })

/-- 41_gshare.md R103: BTB correctness while the entry is not overwritten, no target for a colliding PC, and the fallback
(the proviso is the spec's own inference, marked so). -/
def Obligations.BtbCorrectnessAndFallbackG : Prop :=
  (∀ (s t u : State) (p target : Word), s.cfg.variant = .gshare →
    exec (.updateG p target true) s = .next t → u.cfg = t.cfg →
    u.btbAt (p.toNat / 4 % 2 ^ s.cfg.B) = t.btbAt (p.toNat / 4 % 2 ^ s.cfg.B) →
    (2 ≤ (u.phtAt ((p.toNat / 4 ^^^ u.ghr.toNat) % 2 ^ u.cfg.H)).toNat →
      exec (.predictG p) u = .next { u with results := u.results ++ [target] }) ∧
    (∀ q : Word, q.toNat / 4 % 2 ^ s.cfg.B = p.toNat / 4 % 2 ^ s.cfg.B → q.toNat / 4 ≠ p.toNat / 4 →
      exec (.predictG q) u =
        .next { u with results := u.results ++ [BitVec.ofNat 32 (q.toNat + 4)] })) ∧
  (∀ (u : State) (q : Word), u.cfg.variant = .gshare →
    ((u.btbAt (q.toNat / 4 % 2 ^ u.cfg.B)).valid = false ∨
      (u.btbAt (q.toNat / 4 % 2 ^ u.cfg.B)).tag.toNat ≠ q.toNat / 4 / 2 ^ u.cfg.B ∨
      (u.phtAt ((q.toNat / 4 ^^^ u.ghr.toNat) % 2 ^ u.cfg.H)).toNat < 2) →
    exec (.predictG q) u =
      .next { u with results := u.results ++ [BitVec.ofNat 32 (q.toNat + 4)] })

/-- 10_state.md R22 (the spec's own inference, marked so): bit `k` of `GHR` is the outcome of the UPDATE `k` before the last,
after any UPDATEs of a GSHARE instance from any state; older bits are the old history moved up. -/
def Obligations.HistoryHoldsLatestOutcomes : Prop :=
  ∀ (us : List Resolved) (s : State), s.cfg.variant = .gshare →
    ∃ t, runOps (us.map Resolved.toOp) s = .next t ∧
      ∀ k < s.cfg.H, t.ghr.getLsbD k =
        ((us.reverse.map Resolved.taken)[k]?).getD (s.ghr.getLsbD (k - us.length))

/-- "It has no local history, no LPHT and no meta-predictor" (41_gshare.md R104; 10_state.md R20): a GSHARE row neither reads
nor writes what those fields hold. -/
def Obligations.GshareRowsIgnoreLocalTables : Prop :=
  ∀ (s : State) (i : Instr) (lht : Table LocalHistory) (lpht : Table Counter2) (mt : Table Counter3),
    s.cfg.variant = .gshare → i.wf .gshare = true → i ≠ .reset →
    ∃ t, exec i s = .next t ∧
      exec i { s with lht := lht, lpht := lpht, metaTab := mt } =
        .next { t with lht := lht, lpht := lpht, metaTab := mt }

/-! ### TOURNAMENT -/

/-- `PREDICT.T`, 42_tournament.md R110, in every state of a TOURNAMENT instance. -/
def Obligations.PredictTFollowsSelectedSubPredictor : Prop :=
  ∀ (s : State) (pc : Word), s.cfg.variant = .tournament →
    let w := pc.toNat / 4
    let bi := w % 2 ^ s.cfg.B
    let e := s.btbAt bi
    let g := s.phtAt ((w ^^^ s.ghr.toNat) % 2 ^ s.cfg.H)
    let l := s.lphtAt (s.lhtAt bi).toNat
    let c := if 4 ≤ (s.metaAt bi).toNat then g else l
    let nextPc : Word :=
      if 2 ≤ c.toNat ∧ e.valid = true ∧ e.tag.toNat = pc.toNat / 2 ^ s.cfg.B then e.targetPc
      else BitVec.ofNat 32 (pc.toNat + 4)
    exec (.predictT pc) s = .next { s with results := s.results ++ [nextPc] } ∧
    (∀ p : Ports, p.predPc = pc → predNextPc s p = nextPc) ∧
    (∀ x : OpWord, x.toNat / 2 ^ 65 = 0 → x.toNat % 2 ^ 32 = pc.toNat →
      decode s.cfg.variant x = .ok (.predictT pc))

/-- `UPDATE.T`, 42_tournament.md R111, in every state of a TOURNAMENT instance: both counters trained, the local history
shifted, META moved by the judgement of the UPDATED counters (at the index bound before the shift, R114), the BTB written when
taken, `GHR` and everything else unchanged. -/
def Obligations.UpdateTTrainsAndJudgesUpdatedCounters : Prop :=
  ∀ (s : State) (pc nextPc : Word) (taken : Bool), s.cfg.variant = .tournament →
    let w := pc.toNat / 4
    let bi := w % 2 ^ s.cfg.B
    let pi := (w ^^^ s.ghr.toNat) % 2 ^ s.cfg.H
    let li := (s.lhtAt bi).toNat
    ∃ t, exec (.updateT pc nextPc taken) s = .next t ∧
      (∀ j, (t.phtAt j).toNat =
        if j = pi then (if taken then min ((s.phtAt pi).toNat + 1) 3 else (s.phtAt pi).toNat - 1)
        else (s.phtAt j).toNat) ∧
      (∀ j, (t.lphtAt j).toNat =
        if j = li then (if taken then min ((s.lphtAt li).toNat + 1) 3 else (s.lphtAt li).toNat - 1)
        else (s.lphtAt j).toNat) ∧
      (∀ j, (t.lhtAt j).toNat =
        if j = bi then (2 * (s.lhtAt bi).toNat + taken.toNat) % 256 else (s.lhtAt j).toNat) ∧
      (∀ j,
        let gshareCorrect : Bool := decide (2 ≤ (t.phtAt pi).toNat) == taken
        let localCorrect : Bool := decide (2 ≤ (t.lphtAt li).toNat) == taken
        (t.metaAt j).toNat =
          if j = bi ∧ gshareCorrect = true ∧ localCorrect = false then min ((s.metaAt bi).toNat + 1) 7
          else if j = bi ∧ localCorrect = true ∧ gshareCorrect = false then (s.metaAt bi).toNat - 1
          else (s.metaAt j).toNat) ∧
      (∀ j, t.btbAt j =
        if taken = true ∧ j = bi then BtbEntry.mk true nextPc (BitVec.ofNat 32 (pc.toNat / 2 ^ s.cfg.B))
        else s.btbAt j) ∧
      t.ghr = s.ghr ∧ t.cfg = s.cfg ∧ t.pending = s.pending ∧ t.results = s.results ∧
      (∀ p : Ports, p.rst = false → p.updValid = true → p.updPc = pc → p.updNextPc = nextPc →
        p.updTaken = taken → clockEdge s p = t) ∧
      (∀ x : OpWord, x.toNat / 2 ^ 65 = 1 → x.toNat % 2 ^ 32 = pc.toNat →
        x.toNat / 2 ^ 32 % 2 ^ 32 = nextPc.toNat → x.toNat / 2 ^ 64 % 2 = taken.toNat →
        decode s.cfg.variant x = .ok (.updateT pc nextPc taken))

/-- 42_tournament.md R112: the meta counter's movement by the counters before the UPDATE, the whole table
(the spec's own inference, marked so). -/
def Obligations.MetaMovesByCountersBeforeUpdate : Prop :=
  ∀ (s : State) (pc nextPc : Word) (taken : Bool), s.cfg.variant = .tournament →
    let bi := pc.toNat / 4 % 2 ^ s.cfg.B
    let g := (s.phtAt ((pc.toNat / 4 ^^^ s.ghr.toNat) % 2 ^ s.cfg.H)).toNat
    let l := (s.lphtAt (s.lhtAt bi).toNat).toNat
    let m := (s.metaAt bi).toNat
    ∃ t, exec (.updateT pc nextPc taken) s = .next t ∧
      (t.metaAt bi).toNat =
        if taken then
          if 1 ≤ g ∧ l = 0 then min (m + 1) 7 else if g = 0 ∧ 1 ≤ l then m - 1 else m
        else
          if g ≤ 2 ∧ l = 3 then min (m + 1) 7 else if g = 3 ∧ l ≤ 2 then m - 1 else m

/-- 42_tournament.md R115: the update-after-mutation anomaly. A counter that predicted wrong is credited as correct exactly when
it crosses its threshold on this UPDATE; where both directions before the UPDATE were wrong, META yet moves toward the counter
that crosses. -/
def Obligations.CounterCrossingThresholdIsCredited : Prop :=
  (∀ (c : Counter2) (taken : Bool), (postCorrect c taken = true ∧ dir2 c ≠ taken) ↔
    ((c = 1 ∧ taken = true) ∨ (c = 2 ∧ taken = false))) ∧
  ∀ (s : State) (pc nextPc : Word), s.cfg.variant = .tournament →
    let bi := pc.toNat / 4 % 2 ^ s.cfg.B
    let g := (s.phtAt ((pc.toNat / 4 ^^^ s.ghr.toNat) % 2 ^ s.cfg.H)).toNat
    let l := (s.lphtAt (s.lhtAt bi).toNat).toNat
    ∀ taken : Bool, ∃ t, exec (.updateT pc nextPc taken) s = .next t ∧
      (((taken = true ∧ g = 1 ∧ l = 0) ∨ (taken = false ∧ g = 2 ∧ l = 3)) →
        (decide (2 ≤ g) ≠ taken ∧ decide (2 ≤ l) ≠ taken) ∧
        (t.metaAt bi).toNat = min ((s.metaAt bi).toNat + 1) 7) ∧
      (((taken = true ∧ g = 0 ∧ l = 1) ∨ (taken = false ∧ g = 3 ∧ l = 2)) →
        (decide (2 ≤ g) ≠ taken ∧ decide (2 ≤ l) ≠ taken) ∧
        (t.metaAt bi).toNat = (s.metaAt bi).toNat - 1)

/-- 42_tournament.md R113: no TOURNAMENT operation but RESET writes `GHR`; in every state an instance reaches it is 0 and the
PHT index is that of the PC alone. -/
def Obligations.TournamentNeverWritesHistory : Prop :=
  (∀ (s t : State) (i : Instr), s.cfg.variant = .tournament → exec i s = .next t → i ≠ .reset →
    t.ghr = s.ghr) ∧
  (∀ s : State, Reachable s → s.cfg.variant = .tournament →
    s.ghr = 0 ∧ ∀ pc : Word, phtIndex s.cfg s.ghr pc = pc.toNat / 4 % 2 ^ s.cfg.H)

/-- 42_tournament.md R116 (the spec's own inference, marked so): UPDATEs of one site with the local counter right and the
global one wrong, whatever UPDATEs of other sites stand between them, take `META[i]` from `m` to `max(m - k, 0)`; at 3 or less
PREDICT follows the local counter. -/
def Obligations.MetaConvergesToLocalPredictor : Prop :=
  ∀ (i : Nat) (us : List Resolved) (s : State), s.cfg.variant = .tournament →
    localRightGlobalWrong i us s →
    ∃ t, runOps (us.map Resolved.toOp) s = .next t ∧
      (t.metaAt i).toNat =
        (s.metaAt i).toNat - (us.filter (fun u => u.pc.toNat / 4 % 2 ^ s.cfg.B = i)).length ∧
      ((t.metaAt i).toNat ≤ 3 → ∀ pc : Word, pc.toNat / 4 % 2 ^ s.cfg.B = i →
        directionT t pc = decide (2 ≤ (t.lphtAt (t.lhtAt i).toNat).toNat))

/-- 10_state.md R24 (the spec's own inference, marked so): bit `k` of `LHT[i]` is the outcome of the `k`-th before the last
UPDATE among those with index `i`. -/
def Obligations.LocalHistoryHoldsOutcomesOfItsIndex : Prop :=
  ∀ (us : List Resolved) (s : State) (i : Nat), s.cfg.variant = .tournament →
    let own := us.filter (fun u => u.pc.toNat / 4 % 2 ^ s.cfg.B = i)
    ∃ t, runOps (us.map Resolved.toOp) s = .next t ∧
      ∀ k < 8, (t.lhtAt i).getLsbD k =
        ((own.reverse.map Resolved.taken)[k]?).getD ((s.lhtAt i).getLsbD (k - own.length))

/-- 42_tournament.md R110: "The sub-predictor that is not selected has no influence on the result." -/
def Obligations.UnselectedSubPredictorHasNoInfluence : Prop :=
  ∀ (s t : State) (pc : Word), s.cfg.variant = .tournament → t.cfg = s.cfg →
    let bi := pc.toNat / 4 % 2 ^ s.cfg.B
    t.metaAt bi = s.metaAt bi → t.btbAt bi = s.btbAt bi →
    (4 ≤ (s.metaAt bi).toNat → t.ghr = s.ghr → (∀ j, t.phtAt j = s.phtAt j) →
      predict t pc = predict s pc) ∧
    ((s.metaAt bi).toNat < 4 → t.lhtAt bi = s.lhtAt bi → (∀ j, t.lphtAt j = s.lphtAt j) →
      predict t pc = predict s pc)

/-! ### RESET and construction -/

/-- `RESET`, 70_reset_and_hazards.md R150, in both variants and every state: every element takes its reset value, the effect
does not depend on the state before, and RESET twice is RESET once. That the queue and the results stay is the model's reading
(log 13); that the effect is the same whatever a GSHARE state holds in the fields it does not use rests on RESET clearing them
in both variants (log 14). -/
def Obligations.ResetRestoresEveryElement : Prop :=
  ∀ s : State, ∃ t, exec .reset s = .next t ∧
    t.ghr = 0 ∧ (∀ i, t.phtAt i = 0) ∧ (∀ i, t.btbAt i = BtbEntry.mk false 0 0) ∧
    (s.cfg.variant = .tournament →
      (∀ i, t.lhtAt i = 0) ∧ (∀ j, t.lphtAt j = 0) ∧ (∀ i, t.metaAt i = s.cfg.metaReset)) ∧
    t.cfg = s.cfg ∧ t.pending = s.pending ∧ t.results = s.results ∧
    (∀ s' : State, s'.cfg = s.cfg → s'.pending = s.pending → s'.results = s.results →
      exec .reset s' = .next t) ∧
    exec .reset t = .next t ∧
    (∀ p : Ports, p.rst = true → clockEdge s p = t) ∧
    (∀ x : OpWord, x.toNat / 2 ^ 65 = 2 → decode s.cfg.variant x = .ok .reset)

/-- After RESET, and in a new instance, PREDICT returns `PC +32 4` for every PC, in both variants and for every `META_RESET`
(70_reset_and_hazards.md R150, R152). -/
def Obligations.PredictAfterResetIsSequential : Prop :=
  ∀ (s t : State) (pc : Word), exec .reset s = .next t →
    exec ((Op.predict pc).toInstr s.cfg.variant) t =
      .next { t with results := t.results ++ [BitVec.ofNat 32 (pc.toNat + 4)] }

/-- 60_exceptions.md R131: the checks of construction, in their order. -/
def Obligations.ConstructionRefusesInOrder : Prop :=
  ∀ p : Params,
    (p.btbSize = 0 → construct p = .refused (.configError .btbSizeZero)) ∧
    (p.btbSize ≠ 0 → p.btbSize &&& (p.btbSize - 1) ≠ 0 →
      construct p = .refused (.configError .btbSizeNotPowerOfTwo)) ∧
    (p.btbSize ≠ 0 → p.btbSize &&& (p.btbSize - 1) = 0 → p.bhrSize = 0 →
      construct p = .refused (.configError .historyWidthZero)) ∧
    (p.btbSize ≠ 0 → p.btbSize &&& (p.btbSize - 1) = 0 → 32 < p.bhrSize.toNat →
      construct p = .refused (.configError .historyWidthTooLarge)) ∧
    (p.btbSize ≠ 0 → p.btbSize &&& (p.btbSize - 1) = 0 → 1 ≤ p.bhrSize.toNat → p.bhrSize.toNat ≤ 32 →
      p.variant = .tournament → 7 < p.metaReset →
      construct p = .refused (.configError .metaResetOutOfRange))

/-- The legal parameter sets are exactly those with an instance, and the instance has the parameters given and is in the state
RESET produces (00_scope.md R6, R9; 70_reset_and_hazards.md R151). -/
def Obligations.ConstructionAcceptsExactlyLegal : Prop :=
  ∀ p : Params,
    (p.wf = true ↔ ∃ t, construct p = .next t) ∧
    (p.wf = true ↔ (∃ b ≤ 31, p.btbSize.toNat = 2 ^ b) ∧ 1 ≤ p.bhrSize.toNat ∧ p.bhrSize.toNat ≤ 32 ∧
      (p.variant = .tournament → p.metaReset ≤ 7)) ∧
    (∀ t, construct p = .next t →
      t.cfg.variant = p.variant ∧ 2 ^ t.cfg.B = p.btbSize.toNat ∧ t.cfg.H = p.bhrSize.toNat ∧
      (p.variant = .tournament → t.cfg.metaReset.toNat = p.metaReset) ∧
      exec .reset t = .next t ∧ t.pending = [] ∧ t.results = [])

/-! ### Invariants -/

/-- The invariant holds in the reset state of every instance, `State.reset` (its parameters are the model's choice, log 2) among
them, and in every constructed state. -/
def Obligations.ResetStateMeetsInvariant : Prop :=
  (∀ c : Config, (State.resetOf c).Inv) ∧ State.reset.Inv ∧
    (∀ (p : Params) (s : State), construct p = .next s → s.Inv)

/-- Every step keeps the invariant: `GHR` within its width, 0 in TOURNAMENT, the tables in canonical form and in range, listed
BTB entries valid with a tag some PC has, no local tables in GSHARE. -/
def Obligations.StepKeepsInvariant : Prop :=
  ∀ s t : State, s.Inv → step s = .next t → t.Inv

/-- 10_state.md R32, over every state every instance reaches, whatever the host presents. -/
def Obligations.ReachableStatesInRange : Prop :=
  ∀ s : State, Reachable s →
    (∀ i, (s.phtAt i).toNat ≤ 3) ∧ (∀ j, (s.lphtAt j).toNat ≤ 3) ∧ (∀ k, (s.metaAt k).toNat ≤ 7) ∧
    s.ghr.toNat ≤ 2 ^ s.cfg.H - 1 ∧ (∀ k, (s.lhtAt k).toNat ≤ 255)

/-- 10_state.md R37: the tags an instance can hold (the spec's own inference, marked so). -/
def Obligations.ReachableTagsAreBounded : Prop :=
  ∀ s : State, Reachable s → ∀ i,
    (s.cfg.variant = .gshare → (s.btbAt i).tag.toNat ≤ 2 ^ (30 - s.cfg.B) - 1) ∧
    (s.cfg.variant = .tournament → (s.btbAt i).tag.toNat ≤ 2 ^ (32 - s.cfg.B) - 1)

/-- 20_memory.md R52: only RESET clears a `valid` bit, and it clears every table at once; only a taken UPDATE of that index
changes a BTB entry otherwise. That RESET clears the LHT, LPHT and META fields of a GSHARE instance too is the model's choice
(log 14; R150 writes them in TOURNAMENT only). -/
def Obligations.OnlyResetClearsValid : Prop :=
  (∀ (s t : State) (i : Instr) (j : Nat), exec i s = .next t → i ≠ .reset →
    ((s.btbAt j).valid = true → (t.btbAt j).valid = true) ∧
    (t.btbAt j = s.btbAt j ∨ ∃ pc nextPc, i.toOp = .update pc nextPc true ∧
      j = pc.toNat / 4 % 2 ^ s.cfg.B ∧ (t.btbAt j).valid = true ∧ (t.btbAt j).targetPc = nextPc)) ∧
  (∀ s t : State, exec .reset s = .next t → ∀ j, (t.btbAt j).valid = false ∧ t.phtAt j = 0 ∧
    t.lhtAt j = 0 ∧ t.lphtAt j = 0 ∧ t.metaAt j = s.cfg.metaReset)

/-! ### Whole-machine rules -/

/-- PREDICT is read-only and idempotent: any PREDICTs in a row see one state, leave it as it was, and each returns what it would
have returned alone (20_memory.md R45; 70_reset_and_hazards.md R156). -/
def Obligations.PredictsInARowSeeOneState : Prop :=
  ∀ (pcs : List Word) (s : State),
    runOps (pcs.map Op.predict) s = .next { s with results := s.results ++ pcs.map (predict s) }

/-- A branch with no taken UPDATE of its own index and tag is predicted `PC +32 4` whatever else was trained, in both variants
(30_encoding.md R68; 70_reset_and_hazards.md R160). -/
def Obligations.ColdBranchFallsThrough : Prop :=
  ∀ (c : Config) (ops : List Op) (pc : Word),
    let tag := fun q : Word =>
      match c.variant with
      | .gshare => q.toNat / 4 / 2 ^ c.B
      | .tournament => q.toNat / 2 ^ c.B
    (∀ q n, Op.update q n true ∈ ops → q.toNat / 4 % 2 ^ c.B = pc.toNat / 4 % 2 ^ c.B → tag q ≠ tag pc) →
    ∃ t, runOps ops (State.resetOf c) = .next t ∧
      exec ((Op.predict pc).toInstr c.variant) t =
        .next { t with results := t.results ++ [BitVec.ofNat 32 (pc.toNat + 4)] }

/-- 20_memory.md R43 (the spec's own inference, marked so): PCs of one word are one site, in a GSHARE instance and in a
TOURNAMENT instance with `B >= 2`: they train alike, and their predictions differ only in the sequential sum. -/
def Obligations.MisalignedPcIsTheSameSite : Prop :=
  ∀ (s : State) (p q : Word), p.toNat / 4 = q.toNat / 4 → (s.cfg.variant = .gshare ∨ 2 ≤ s.cfg.B) →
    let e := s.btbAt (p.toNat / 4 % 2 ^ s.cfg.B)
    ((predict s p = e.targetPc ∧ predict s q = e.targetPc) ∨
      (predict s p = BitVec.ofNat 32 (p.toNat + 4) ∧ predict s q = BitVec.ofNat 32 (q.toNat + 4))) ∧
    ∀ (n : Word) (k : Bool), update s p n k = update s q n k

/-- UPDATE "compares nothing with the earlier prediction" and does not use the BTB (60_exceptions.md R142; 42_tournament.md
R111): what it does to the counters and histories is the same whatever the BTB and the results hold. -/
def Obligations.TrainingIgnoresBtbAndPredictions : Prop :=
  ∀ (s : State) (btb : Table BtbEntry) (results : List Word) (pc nextPc : Word) (taken : Bool),
    let t := update s pc nextPc taken
    let t' := update { s with btb := btb, results := results } pc nextPc taken
    t'.ghr = t.ghr ∧ t'.pht = t.pht ∧ t'.lht = t.lht ∧ t'.lpht = t.lpht ∧ t'.metaTab = t.metaTab

/-- What an invalid BTB entry holds is unobservable: states that differ only there give the same results after every sequence of
operations (10_state.md R34, R36). -/
def Obligations.InvalidEntriesAreUnobservable : Prop :=
  ∀ (ops : List Op) (s t : State), s.sameUpToInvalid t →
    ∃ s' t', runOps ops s = .next s' ∧ runOps ops t = .next t' ∧ s'.results = t'.results ∧
      s'.sameUpToInvalid t'

/-! ### Ports and traces -/

/-- 30_encoding.md R61: the output is the PREDICT result of the state before the edge; at the edge RESET wins, else UPDATE, else
nothing. -/
def Obligations.ClockEdgeResetWinsElseUpdate : Prop :=
  ∀ (s : State) (p : Ports),
    exec ((Op.predict p.predPc).toInstr s.cfg.variant) s =
      .next { s with results := s.results ++ [predNextPc s p] } ∧
    (p.rst = true → exec .reset s = .next (clockEdge s p)) ∧
    (p.rst = false → p.updValid = true →
      exec ((Op.update p.updPc p.updNextPc p.updTaken).toInstr s.cfg.variant) s = .next (clockEdge s p)) ∧
    (p.rst = false → p.updValid = false → clockEdge s p = s)

/-- 70_reset_and_hazards.md R155: a clock cycle is its operations run by the step, the PREDICT before the UPDATE (or RESET) of
the same cycle, with no bypass. PREDICT before RESET is 30_encoding.md R61. The queue is the model's choice (log 3), a sampled
result surviving RESET its reading (log 13). -/
def Obligations.ClockCycleIsItsOperationsInOrder : Prop :=
  ∀ (s : State) (p : Ports) (sampled : Bool) (rest : List OpWord),
    s.pending = (cycleOps p sampled).map encodeOp ++ rest →
    runSteps (cycleOps p sampled).length s =
      .next { cycle s p sampled with pending := rest } ∧
    (cycle s p sampled).results = s.results ++ (if sampled then [predict s p.predPc] else [])

/-- 30_encoding.md R62: the ports of an operation word, and that one word is one cycle of them. The ports R62 does not name
are driven 0 (log 11) and words are run from the queue (log 3): both are the model's choice. -/
def Obligations.OperationWordIsOneCycleOfPorts : Prop :=
  ∀ (s : State) (w : OpWord) (rest : List OpWord) (o : Op),
    s.pending = w :: rest → decodeOp w = .ok o →
    step s = .next { cycle s (opPorts o) (opSampled o) with pending := rest } ∧
    (w.toNat / 2 ^ 65 = 0 → (opPorts o).predPc.toNat = w.toNat % 2 ^ 32 ∧ opSampled o = true ∧
      (opPorts o).rst = false ∧ (opPorts o).updValid = false) ∧
    (w.toNat / 2 ^ 65 = 1 → (opPorts o).updValid = true ∧ (opPorts o).updPc.toNat = w.toNat % 2 ^ 32 ∧
      (opPorts o).updNextPc.toNat = w.toNat / 2 ^ 32 % 2 ^ 32 ∧
      (opPorts o).updTaken = decide (w.toNat / 2 ^ 64 % 2 = 1) ∧ (opPorts o).rst = false) ∧
    (w.toNat / 2 ^ 65 = 2 → (opPorts o).rst = true)

/-- 30_encoding.md R67: a trace whose `config` line is legal runs, step by step, exactly the operations of its lines, one each,
from the reset state of the instance it names. -/
def Obligations.TraceRunsItsOperations : Prop :=
  ∀ (p : Params) (ls : List TraceLine) (s : State), loadTrace (.config p :: ls) = .ok s →
    ∃ s0 t, construct p = .next s0 ∧ runOps (ls.filterMap TraceLine.toOp?) s0 = .next t ∧
      runSteps ls.length s = .next t
end

