-- ==== Sys2Proof/Laws/Flags.lean ====
section
/-! SUPPORT. The counters, thresholds and shifters as arithmetic on naturals: nothing is lost in narrowing
(40_indexing_and_primitives.md R86 to R91, R95). -/

namespace Sys2Proof.Machine

theorem sat2_toNat (c : Counter2) (taken : Bool) :
    (sat2 c taken).toNat = if taken then min (c.toNat + 1) 3 else c.toNat - 1 := by
  revert c taken
  decide

theorem metaUp_toNat (m : Counter3) : (metaUp m).toNat = min (m.toNat + 1) 7 := by
  revert m
  decide

theorem metaDown_toNat (m : Counter3) : (metaDown m).toNat = m.toNat - 1 := by
  revert m
  decide

theorem shiftH_toNat (c : Config) (g : Word) (taken : Bool) :
    (shiftH c g taken).toNat = (2 * g.toNat + taken.toNat) % 2 ^ c.H := by
  have hp : 2 ^ c.H ≤ 2 ^ 32 := Nat.pow_le_pow_right (by decide) c.H_le
  have hm := Nat.mod_lt (2 * g.toNat + taken.toNat) (Nat.two_pow_pos c.H)
  rw [shiftH, BitVec.toNat_ofNat, Nat.mod_eq_of_lt (by omega)]

theorem shift8_toNat (l : LocalHistory) (taken : Bool) :
    (shift8 l taken).toNat = (2 * l.toNat + taken.toNat) % 256 := by
  rw [shift8, BitVec.toNat_ofNat]
  omega

theorem dir2_iff (c : Counter2) : dir2 c = true ↔ 2 ≤ c.toNat := by simp [dir2]

theorem useGshare_iff (m : Counter3) : useGshare m = true ↔ 4 ≤ m.toNat := by simp [useGshare]

/-- "`post_correct(c, T) = (c >= 1)` and `post_correct(c, N) = (c <= 2)`" (40_indexing_and_primitives.md R97). -/
theorem postCorrect_iff (c : Counter2) (taken : Bool) :
    postCorrect c taken = true ↔ if taken then 1 ≤ c.toNat else c.toNat ≤ 2 := by
  revert c taken
  decide

end Sys2Proof.Machine
end

