-- ==== Sys2Proof/Laws/Operands.lean ====
section
/-! SUPPORT. The index and tag derivations as arithmetic on naturals: masking is reduction modulo a power of two, a shift is a
division (20_memory.md R41; 40_indexing_and_primitives.md R80 to R85, R95), and every index is in range. -/

namespace Sys2Proof.Machine

theorem btbSize_pos (c : Config) : 0 < btbSize c := Nat.two_pow_pos _

theorem btbSize_le (c : Config) : btbSize c ≤ 2 ^ 31 := Nat.pow_le_pow_right (by decide) c.B_le

theorem phtSize_pos (c : Config) : 0 < phtSize c := Nat.two_pow_pos _

theorem phtSize_le (c : Config) : phtSize c ≤ 2 ^ 32 := Nat.pow_le_pow_right (by decide) c.H_le

theorem btbMask_toNat (c : Config) : (btbMask c).toNat = 2 ^ c.B - 1 := by
  have := btbSize_le c
  have := btbSize_pos c
  rw [btbMask, BitVec.toNat_ofNat, Nat.mod_eq_of_lt (by omega), btbSize]

theorem historyMask_toNat (c : Config) : (historyMask c).toNat = 2 ^ c.H - 1 := by
  have := phtSize_le c
  have := phtSize_pos c
  rw [historyMask, BitVec.toNat_ofNat, Nat.mod_eq_of_lt (by omega), phtSize]

theorem word_toNat (pc : Word) : (word pc).toNat = pc.toNat / 4 := by
  simp [word, Nat.shiftRight_eq_div_pow]

theorem btbIndex_eq (c : Config) (pc : Word) : btbIndex c pc = pc.toNat / 4 % 2 ^ c.B := by
  rw [btbIndex, BitVec.toNat_and, btbMask_toNat, word_toNat, Nat.and_two_pow_sub_one_eq_mod]

theorem lhtIndex_eq (c : Config) (pc : Word) : lhtIndex c pc = btbIndex c pc := rfl

theorem phtIndex_eq (c : Config) (g pc : Word) :
    phtIndex c g pc = (pc.toNat / 4 ^^^ g.toNat) % 2 ^ c.H := by
  rw [phtIndex, BitVec.toNat_and, historyMask_toNat, BitVec.toNat_xor, word_toNat,
    Nat.and_two_pow_sub_one_eq_mod]

theorem tagG_toNat (c : Config) (pc : Word) : (tagG c pc).toNat = pc.toNat / 4 / 2 ^ c.B := by
  rw [tagG, btbShift, BitVec.toNat_ushiftRight, word_toNat, Nat.shiftRight_eq_div_pow]

theorem tagT_toNat (c : Config) (pc : Word) : (tagT c pc).toNat = pc.toNat / 2 ^ c.B := by
  rw [tagT, btbShift, BitVec.toNat_ushiftRight, Nat.shiftRight_eq_div_pow]

/-- "the mask changes nothing" (40_indexing_and_primitives.md R85). -/
theorem lphtIndex_eq (e : LocalHistory) : lphtIndex e = e.toNat := by
  have : e &&& lphtMask = e := by
    rw [lphtMask]
    exact BitVec.and_allOnes
  rw [lphtIndex, this]

theorem btbIndex_lt (c : Config) (pc : Word) : btbIndex c pc < btbSize c := by
  rw [btbIndex_eq]
  exact Nat.mod_lt _ (Nat.two_pow_pos _)

theorem lhtIndex_lt (c : Config) (pc : Word) : lhtIndex c pc < btbSize c := btbIndex_lt c pc

theorem phtIndex_lt (c : Config) (g pc : Word) : phtIndex c g pc < phtSize c := by
  rw [phtIndex_eq]
  exact Nat.mod_lt _ (Nat.two_pow_pos _)

theorem lphtIndex_lt (e : LocalHistory) : lphtIndex e < lphtSize := by
  rw [lphtIndex_eq]
  exact e.isLt

end Sys2Proof.Machine
end

