-- ==== Sys2Proof/Laws/Table.lean ====
section
/-! SUPPORT. What reading, writing and the canonical form of a table say of each other (20_memory.md R41). -/

namespace Sys2Proof.Machine

variable {α : Type}

@[simp] theorem Table.read_nil (d : α) (i : Nat) : Table.read d [] i = d := rfl

theorem Table.read_cons (d : α) (j : Nat) (v : α) (rest : Table α) (i : Nat) :
    Table.read d ((j, v) :: rest) i = if j = i then v else Table.read d rest i := rfl

theorem Table.read_filter_self (d : α) (t : Table α) (i : Nat) :
    Table.read d (t.filter (fun e => e.1 ≠ i)) i = d := by
  induction t with
  | nil => rfl
  | cons e rest ih =>
    obtain ⟨k, v⟩ := e
    by_cases h : k = i
    · rw [List.filter_cons_of_neg (by simpa using h), ih]
    · rw [List.filter_cons_of_pos (by simpa using h), Table.read_cons, if_neg h, ih]

theorem Table.read_filter_other (d : α) (t : Table α) {i j : Nat} (h : j ≠ i) :
    Table.read d (t.filter (fun e => e.1 ≠ i)) j = Table.read d t j := by
  induction t with
  | nil => rfl
  | cons e rest ih =>
    obtain ⟨k, v⟩ := e
    by_cases hk : k = i
    · rw [List.filter_cons_of_neg (by simpa using hk), ih, Table.read_cons,
        if_neg (by rintro rfl; exact h hk)]
    · rw [List.filter_cons_of_pos (by simpa using hk), Table.read_cons, Table.read_cons, ih]

theorem Table.read_insert_self (d : α) (t : Table α) (i : Nat) (v : α)
    (h : ∀ e ∈ t, e.1 ≠ i) : Table.read d (Table.insert i v t) i = v := by
  induction t with
  | nil => simp [Table.insert, Table.read_cons]
  | cons e rest ih =>
    obtain ⟨k, w⟩ := e
    have hk : k ≠ i := h (k, w) (by simp)
    unfold Table.insert
    split
    · simp [Table.read_cons]
    · rw [Table.read_cons, if_neg hk]
      exact ih (fun e he => h e (by simp [he]))

theorem Table.read_insert_other (d : α) (t : Table α) {i j : Nat} (v : α) (h : j ≠ i) :
    Table.read d (Table.insert i v t) j = Table.read d t j := by
  induction t with
  | nil => simp [Table.insert, Table.read_cons, Ne.symm h]
  | cons e rest ih =>
    obtain ⟨k, w⟩ := e
    unfold Table.insert
    split
    · rw [Table.read_cons, if_neg (Ne.symm h)]
    · rw [Table.read_cons, Table.read_cons, ih]

theorem Table.wf_nil (d : α) (size : Nat) : Table.wf d size [] := by simp [Table.wf]

/-- In canonical form an entry reads as something else than its reset value only where it is listed. -/
theorem Table.mem_of_read_ne (d : α) (t : Table α) (i : Nat) (h : Table.read d t i ≠ d) :
    (i, Table.read d t i) ∈ t := by
  induction t with
  | nil => simp at h
  | cons e rest ih =>
    obtain ⟨k, w⟩ := e
    rw [Table.read_cons] at h ⊢
    split
    · rename_i hk
      simp [hk]
    · rename_i hk
      rw [if_neg hk] at h
      exact List.mem_cons_of_mem _ (ih h)

variable [DecidableEq α]

/-- A read after a write: the written entry gives the value written, every other entry what it gave before. This holds of
every list, in canonical form or not. -/
theorem Table.read_write (d : α) (t : Table α) (i j : Nat) (v : α) :
    Table.read d (Table.write d t i v) j = if j = i then v else Table.read d t j := by
  unfold Table.write
  by_cases hj : j = i
  · subst hj
    rw [if_pos rfl]
    split
    · rename_i hv
      rw [Table.read_filter_self, hv]
    · exact Table.read_insert_self d _ j v (by simp)
  · rw [if_neg hj]
    split
    · exact Table.read_filter_other d t hj
    · rw [Table.read_insert_other d _ v hj, Table.read_filter_other d t hj]

theorem Table.mem_insert (i : Nat) (v : α) (t : Table α) (e : Nat × α) :
    e ∈ Table.insert i v t ↔ e = (i, v) ∨ e ∈ t := by
  induction t with
  | nil => simp [Table.insert]
  | cons f rest ih =>
    unfold Table.insert
    split
    · simp
    · simp only [List.mem_cons, ih]
      tauto

/-- What a write lists: the new entry, unless it is the reset value, and the other entries. -/
theorem Table.mem_write (d : α) (t : Table α) (i : Nat) (v : α) (e : Nat × α) :
    e ∈ Table.write d t i v ↔ (v ≠ d ∧ e = (i, v)) ∨ (e ∈ t ∧ e.1 ≠ i) := by
  unfold Table.write
  split
  · rename_i h
    simp [h]
  · rename_i h
    simp [Table.mem_insert, h]

theorem Table.pairwise_insert (i : Nat) (v : α) (t : Table α)
    (ht : t.Pairwise (fun a b => a.1 < b.1)) (hi : ∀ e ∈ t, e.1 ≠ i) :
    (Table.insert i v t).Pairwise (fun a b => a.1 < b.1) := by
  induction t with
  | nil => simp [Table.insert]
  | cons f rest ih =>
    have hf : f.1 ≠ i := hi f (by simp)
    have hrest := List.pairwise_cons.1 ht
    unfold Table.insert
    split
    · rename_i hlt
      refine List.pairwise_cons.2 ⟨?_, ht⟩
      intro e he
      rcases List.mem_cons.1 he with rfl | he
      · exact hlt
      · exact lt_trans hlt (hrest.1 e he)
    · rename_i hlt
      refine List.pairwise_cons.2 ⟨?_, ih hrest.2 (fun e he => hi e (by simp [he]))⟩
      intro e he
      rcases (Table.mem_insert i v rest e).1 he with rfl | he
      · simp only at hlt ⊢
        omega
      · exact hrest.1 e he

/-- Every write to an entry in range keeps the canonical form (20_memory.md R41). -/
theorem Table.wf_write {d : α} {size : Nat} {t : Table α} (h : Table.wf d size t) {i : Nat}
    (hi : i < size) (v : α) : Table.wf d size (Table.write d t i v) := by
  refine ⟨?_, ?_⟩
  · have hp : (t.filter (fun e => e.1 ≠ i)).Pairwise (fun a b => a.1 < b.1) :=
      h.1.sublist List.filter_sublist
    unfold Table.write
    split
    · exact hp
    · exact Table.pairwise_insert i v _ hp (by simp)
  · intro e he
    rcases (Table.mem_write d t i v e).1 he with ⟨hv, rfl⟩ | ⟨he, -⟩
    · exact ⟨hi, hv⟩
    · exact h.2 e he

end Sys2Proof.Machine
end

