-- ==== Sys2Proof/Laws/State.lean ====
section
/-! SUPPORT. One lemma per field per update, and one per table read per update, so that no proof unfolds a record update. -/

namespace Sys2Proof.Machine

/-! `State.writePht` -/

@[simp] theorem State.writePht_cfg (s : State) (i : Nat) (v : Counter2) : (s.writePht i v).cfg = s.cfg := rfl
@[simp] theorem State.writePht_ghr (s : State) (i : Nat) (v : Counter2) : (s.writePht i v).ghr = s.ghr := rfl
@[simp] theorem State.writePht_pht (s : State) (i : Nat) (v : Counter2) : (s.writePht i v).pht = Table.write 0 s.pht i v := rfl
@[simp] theorem State.writePht_btb (s : State) (i : Nat) (v : Counter2) : (s.writePht i v).btb = s.btb := rfl
@[simp] theorem State.writePht_lht (s : State) (i : Nat) (v : Counter2) : (s.writePht i v).lht = s.lht := rfl
@[simp] theorem State.writePht_lpht (s : State) (i : Nat) (v : Counter2) : (s.writePht i v).lpht = s.lpht := rfl
@[simp] theorem State.writePht_metaTab (s : State) (i : Nat) (v : Counter2) : (s.writePht i v).metaTab = s.metaTab := rfl
@[simp] theorem State.writePht_pending (s : State) (i : Nat) (v : Counter2) : (s.writePht i v).pending = s.pending := rfl
@[simp] theorem State.writePht_results (s : State) (i : Nat) (v : Counter2) : (s.writePht i v).results = s.results := rfl
@[simp] theorem State.writePht_phtAt (s : State) (i : Nat) (v : Counter2) (j : Nat) :
    (s.writePht i v).phtAt j = if j = i then v else s.phtAt j := Table.read_write _ _ _ _ _
@[simp] theorem State.writePht_btbAt (s : State) (i : Nat) (v : Counter2) (j : Nat) : (s.writePht i v).btbAt j = s.btbAt j := rfl
@[simp] theorem State.writePht_lhtAt (s : State) (i : Nat) (v : Counter2) (j : Nat) : (s.writePht i v).lhtAt j = s.lhtAt j := rfl
@[simp] theorem State.writePht_lphtAt (s : State) (i : Nat) (v : Counter2) (j : Nat) : (s.writePht i v).lphtAt j = s.lphtAt j := rfl
@[simp] theorem State.writePht_metaAt (s : State) (i : Nat) (v : Counter2) (j : Nat) : (s.writePht i v).metaAt j = s.metaAt j := rfl

/-! `State.writeBtb` -/

@[simp] theorem State.writeBtb_cfg (s : State) (i : Nat) (v : BtbEntry) : (s.writeBtb i v).cfg = s.cfg := rfl
@[simp] theorem State.writeBtb_ghr (s : State) (i : Nat) (v : BtbEntry) : (s.writeBtb i v).ghr = s.ghr := rfl
@[simp] theorem State.writeBtb_pht (s : State) (i : Nat) (v : BtbEntry) : (s.writeBtb i v).pht = s.pht := rfl
@[simp] theorem State.writeBtb_btb (s : State) (i : Nat) (v : BtbEntry) : (s.writeBtb i v).btb = Table.write BtbEntry.reset s.btb i v := rfl
@[simp] theorem State.writeBtb_lht (s : State) (i : Nat) (v : BtbEntry) : (s.writeBtb i v).lht = s.lht := rfl
@[simp] theorem State.writeBtb_lpht (s : State) (i : Nat) (v : BtbEntry) : (s.writeBtb i v).lpht = s.lpht := rfl
@[simp] theorem State.writeBtb_metaTab (s : State) (i : Nat) (v : BtbEntry) : (s.writeBtb i v).metaTab = s.metaTab := rfl
@[simp] theorem State.writeBtb_pending (s : State) (i : Nat) (v : BtbEntry) : (s.writeBtb i v).pending = s.pending := rfl
@[simp] theorem State.writeBtb_results (s : State) (i : Nat) (v : BtbEntry) : (s.writeBtb i v).results = s.results := rfl
@[simp] theorem State.writeBtb_phtAt (s : State) (i : Nat) (v : BtbEntry) (j : Nat) : (s.writeBtb i v).phtAt j = s.phtAt j := rfl
@[simp] theorem State.writeBtb_btbAt (s : State) (i : Nat) (v : BtbEntry) (j : Nat) :
    (s.writeBtb i v).btbAt j = if j = i then v else s.btbAt j := Table.read_write _ _ _ _ _
@[simp] theorem State.writeBtb_lhtAt (s : State) (i : Nat) (v : BtbEntry) (j : Nat) : (s.writeBtb i v).lhtAt j = s.lhtAt j := rfl
@[simp] theorem State.writeBtb_lphtAt (s : State) (i : Nat) (v : BtbEntry) (j : Nat) : (s.writeBtb i v).lphtAt j = s.lphtAt j := rfl
@[simp] theorem State.writeBtb_metaAt (s : State) (i : Nat) (v : BtbEntry) (j : Nat) : (s.writeBtb i v).metaAt j = s.metaAt j := rfl

/-! `State.writeLht` -/

@[simp] theorem State.writeLht_cfg (s : State) (i : Nat) (v : LocalHistory) : (s.writeLht i v).cfg = s.cfg := rfl
@[simp] theorem State.writeLht_ghr (s : State) (i : Nat) (v : LocalHistory) : (s.writeLht i v).ghr = s.ghr := rfl
@[simp] theorem State.writeLht_pht (s : State) (i : Nat) (v : LocalHistory) : (s.writeLht i v).pht = s.pht := rfl
@[simp] theorem State.writeLht_btb (s : State) (i : Nat) (v : LocalHistory) : (s.writeLht i v).btb = s.btb := rfl
@[simp] theorem State.writeLht_lht (s : State) (i : Nat) (v : LocalHistory) : (s.writeLht i v).lht = Table.write 0 s.lht i v := rfl
@[simp] theorem State.writeLht_lpht (s : State) (i : Nat) (v : LocalHistory) : (s.writeLht i v).lpht = s.lpht := rfl
@[simp] theorem State.writeLht_metaTab (s : State) (i : Nat) (v : LocalHistory) : (s.writeLht i v).metaTab = s.metaTab := rfl
@[simp] theorem State.writeLht_pending (s : State) (i : Nat) (v : LocalHistory) : (s.writeLht i v).pending = s.pending := rfl
@[simp] theorem State.writeLht_results (s : State) (i : Nat) (v : LocalHistory) : (s.writeLht i v).results = s.results := rfl
@[simp] theorem State.writeLht_phtAt (s : State) (i : Nat) (v : LocalHistory) (j : Nat) : (s.writeLht i v).phtAt j = s.phtAt j := rfl
@[simp] theorem State.writeLht_btbAt (s : State) (i : Nat) (v : LocalHistory) (j : Nat) : (s.writeLht i v).btbAt j = s.btbAt j := rfl
@[simp] theorem State.writeLht_lhtAt (s : State) (i : Nat) (v : LocalHistory) (j : Nat) :
    (s.writeLht i v).lhtAt j = if j = i then v else s.lhtAt j := Table.read_write _ _ _ _ _
@[simp] theorem State.writeLht_lphtAt (s : State) (i : Nat) (v : LocalHistory) (j : Nat) : (s.writeLht i v).lphtAt j = s.lphtAt j := rfl
@[simp] theorem State.writeLht_metaAt (s : State) (i : Nat) (v : LocalHistory) (j : Nat) : (s.writeLht i v).metaAt j = s.metaAt j := rfl

/-! `State.writeLpht` -/

@[simp] theorem State.writeLpht_cfg (s : State) (i : Nat) (v : Counter2) : (s.writeLpht i v).cfg = s.cfg := rfl
@[simp] theorem State.writeLpht_ghr (s : State) (i : Nat) (v : Counter2) : (s.writeLpht i v).ghr = s.ghr := rfl
@[simp] theorem State.writeLpht_pht (s : State) (i : Nat) (v : Counter2) : (s.writeLpht i v).pht = s.pht := rfl
@[simp] theorem State.writeLpht_btb (s : State) (i : Nat) (v : Counter2) : (s.writeLpht i v).btb = s.btb := rfl
@[simp] theorem State.writeLpht_lht (s : State) (i : Nat) (v : Counter2) : (s.writeLpht i v).lht = s.lht := rfl
@[simp] theorem State.writeLpht_lpht (s : State) (i : Nat) (v : Counter2) : (s.writeLpht i v).lpht = Table.write 0 s.lpht i v := rfl
@[simp] theorem State.writeLpht_metaTab (s : State) (i : Nat) (v : Counter2) : (s.writeLpht i v).metaTab = s.metaTab := rfl
@[simp] theorem State.writeLpht_pending (s : State) (i : Nat) (v : Counter2) : (s.writeLpht i v).pending = s.pending := rfl
@[simp] theorem State.writeLpht_results (s : State) (i : Nat) (v : Counter2) : (s.writeLpht i v).results = s.results := rfl
@[simp] theorem State.writeLpht_phtAt (s : State) (i : Nat) (v : Counter2) (j : Nat) : (s.writeLpht i v).phtAt j = s.phtAt j := rfl
@[simp] theorem State.writeLpht_btbAt (s : State) (i : Nat) (v : Counter2) (j : Nat) : (s.writeLpht i v).btbAt j = s.btbAt j := rfl
@[simp] theorem State.writeLpht_lhtAt (s : State) (i : Nat) (v : Counter2) (j : Nat) : (s.writeLpht i v).lhtAt j = s.lhtAt j := rfl
@[simp] theorem State.writeLpht_lphtAt (s : State) (i : Nat) (v : Counter2) (j : Nat) :
    (s.writeLpht i v).lphtAt j = if j = i then v else s.lphtAt j := Table.read_write _ _ _ _ _
@[simp] theorem State.writeLpht_metaAt (s : State) (i : Nat) (v : Counter2) (j : Nat) : (s.writeLpht i v).metaAt j = s.metaAt j := rfl

/-! `State.writeMeta` -/

@[simp] theorem State.writeMeta_cfg (s : State) (i : Nat) (v : Counter3) : (s.writeMeta i v).cfg = s.cfg := rfl
@[simp] theorem State.writeMeta_ghr (s : State) (i : Nat) (v : Counter3) : (s.writeMeta i v).ghr = s.ghr := rfl
@[simp] theorem State.writeMeta_pht (s : State) (i : Nat) (v : Counter3) : (s.writeMeta i v).pht = s.pht := rfl
@[simp] theorem State.writeMeta_btb (s : State) (i : Nat) (v : Counter3) : (s.writeMeta i v).btb = s.btb := rfl
@[simp] theorem State.writeMeta_lht (s : State) (i : Nat) (v : Counter3) : (s.writeMeta i v).lht = s.lht := rfl
@[simp] theorem State.writeMeta_lpht (s : State) (i : Nat) (v : Counter3) : (s.writeMeta i v).lpht = s.lpht := rfl
@[simp] theorem State.writeMeta_metaTab (s : State) (i : Nat) (v : Counter3) : (s.writeMeta i v).metaTab = Table.write s.cfg.metaReset s.metaTab i v := rfl
@[simp] theorem State.writeMeta_pending (s : State) (i : Nat) (v : Counter3) : (s.writeMeta i v).pending = s.pending := rfl
@[simp] theorem State.writeMeta_results (s : State) (i : Nat) (v : Counter3) : (s.writeMeta i v).results = s.results := rfl
@[simp] theorem State.writeMeta_phtAt (s : State) (i : Nat) (v : Counter3) (j : Nat) : (s.writeMeta i v).phtAt j = s.phtAt j := rfl
@[simp] theorem State.writeMeta_btbAt (s : State) (i : Nat) (v : Counter3) (j : Nat) : (s.writeMeta i v).btbAt j = s.btbAt j := rfl
@[simp] theorem State.writeMeta_lhtAt (s : State) (i : Nat) (v : Counter3) (j : Nat) : (s.writeMeta i v).lhtAt j = s.lhtAt j := rfl
@[simp] theorem State.writeMeta_lphtAt (s : State) (i : Nat) (v : Counter3) (j : Nat) : (s.writeMeta i v).lphtAt j = s.lphtAt j := rfl
@[simp] theorem State.writeMeta_metaAt (s : State) (i : Nat) (v : Counter3) (j : Nat) :
    (s.writeMeta i v).metaAt j = if j = i then v else s.metaAt j := Table.read_write _ _ _ _ _

/-! `State.setGhr` -/

@[simp] theorem State.setGhr_cfg (s : State) (g : Word) : (s.setGhr g).cfg = s.cfg := rfl
@[simp] theorem State.setGhr_ghr (s : State) (g : Word) : (s.setGhr g).ghr = g := rfl
@[simp] theorem State.setGhr_pht (s : State) (g : Word) : (s.setGhr g).pht = s.pht := rfl
@[simp] theorem State.setGhr_btb (s : State) (g : Word) : (s.setGhr g).btb = s.btb := rfl
@[simp] theorem State.setGhr_lht (s : State) (g : Word) : (s.setGhr g).lht = s.lht := rfl
@[simp] theorem State.setGhr_lpht (s : State) (g : Word) : (s.setGhr g).lpht = s.lpht := rfl
@[simp] theorem State.setGhr_metaTab (s : State) (g : Word) : (s.setGhr g).metaTab = s.metaTab := rfl
@[simp] theorem State.setGhr_pending (s : State) (g : Word) : (s.setGhr g).pending = s.pending := rfl
@[simp] theorem State.setGhr_results (s : State) (g : Word) : (s.setGhr g).results = s.results := rfl
@[simp] theorem State.setGhr_phtAt (s : State) (g : Word) (j : Nat) : (s.setGhr g).phtAt j = s.phtAt j := rfl
@[simp] theorem State.setGhr_btbAt (s : State) (g : Word) (j : Nat) : (s.setGhr g).btbAt j = s.btbAt j := rfl
@[simp] theorem State.setGhr_lhtAt (s : State) (g : Word) (j : Nat) : (s.setGhr g).lhtAt j = s.lhtAt j := rfl
@[simp] theorem State.setGhr_lphtAt (s : State) (g : Word) (j : Nat) : (s.setGhr g).lphtAt j = s.lphtAt j := rfl
@[simp] theorem State.setGhr_metaAt (s : State) (g : Word) (j : Nat) : (s.setGhr g).metaAt j = s.metaAt j := rfl

/-! `State.emit` -/

@[simp] theorem State.emit_cfg (s : State) (v : Word) : (s.emit v).cfg = s.cfg := rfl
@[simp] theorem State.emit_ghr (s : State) (v : Word) : (s.emit v).ghr = s.ghr := rfl
@[simp] theorem State.emit_pht (s : State) (v : Word) : (s.emit v).pht = s.pht := rfl
@[simp] theorem State.emit_btb (s : State) (v : Word) : (s.emit v).btb = s.btb := rfl
@[simp] theorem State.emit_lht (s : State) (v : Word) : (s.emit v).lht = s.lht := rfl
@[simp] theorem State.emit_lpht (s : State) (v : Word) : (s.emit v).lpht = s.lpht := rfl
@[simp] theorem State.emit_metaTab (s : State) (v : Word) : (s.emit v).metaTab = s.metaTab := rfl
@[simp] theorem State.emit_pending (s : State) (v : Word) : (s.emit v).pending = s.pending := rfl
@[simp] theorem State.emit_results (s : State) (v : Word) : (s.emit v).results = s.results ++ [v] := rfl
@[simp] theorem State.emit_phtAt (s : State) (v : Word) (j : Nat) : (s.emit v).phtAt j = s.phtAt j := rfl
@[simp] theorem State.emit_btbAt (s : State) (v : Word) (j : Nat) : (s.emit v).btbAt j = s.btbAt j := rfl
@[simp] theorem State.emit_lhtAt (s : State) (v : Word) (j : Nat) : (s.emit v).lhtAt j = s.lhtAt j := rfl
@[simp] theorem State.emit_lphtAt (s : State) (v : Word) (j : Nat) : (s.emit v).lphtAt j = s.lphtAt j := rfl
@[simp] theorem State.emit_metaAt (s : State) (v : Word) (j : Nat) : (s.emit v).metaAt j = s.metaAt j := rfl

/-! `State.clear` -/

@[simp] theorem State.clear_cfg (s : State) : (s.clear).cfg = s.cfg := rfl
@[simp] theorem State.clear_ghr (s : State) : (s.clear).ghr = 0 := rfl
@[simp] theorem State.clear_pht (s : State) : (s.clear).pht = [] := rfl
@[simp] theorem State.clear_btb (s : State) : (s.clear).btb = [] := rfl
@[simp] theorem State.clear_lht (s : State) : (s.clear).lht = [] := rfl
@[simp] theorem State.clear_lpht (s : State) : (s.clear).lpht = [] := rfl
@[simp] theorem State.clear_metaTab (s : State) : (s.clear).metaTab = [] := rfl
@[simp] theorem State.clear_pending (s : State) : (s.clear).pending = s.pending := rfl
@[simp] theorem State.clear_results (s : State) : (s.clear).results = s.results := rfl
@[simp] theorem State.clear_phtAt (s : State) (j : Nat) : (s.clear).phtAt j = 0 := rfl
@[simp] theorem State.clear_btbAt (s : State) (j : Nat) : (s.clear).btbAt j = BtbEntry.reset := rfl
@[simp] theorem State.clear_lhtAt (s : State) (j : Nat) : (s.clear).lhtAt j = 0 := rfl
@[simp] theorem State.clear_lphtAt (s : State) (j : Nat) : (s.clear).lphtAt j = 0 := rfl
@[simp] theorem State.clear_metaAt (s : State) (j : Nat) : (s.clear).metaAt j = s.cfg.metaReset := rfl

/-! The queue of presented words touches nothing of the block. -/

@[simp] theorem State.pending_phtAt (s : State) (q : List OpWord) (j : Nat) :
    State.phtAt (State.mk s.cfg s.ghr s.pht s.btb s.lht s.lpht s.metaTab q s.results) j = s.phtAt j := rfl
@[simp] theorem State.pending_btbAt (s : State) (q : List OpWord) (j : Nat) :
    State.btbAt (State.mk s.cfg s.ghr s.pht s.btb s.lht s.lpht s.metaTab q s.results) j = s.btbAt j := rfl
@[simp] theorem State.pending_lhtAt (s : State) (q : List OpWord) (j : Nat) :
    State.lhtAt (State.mk s.cfg s.ghr s.pht s.btb s.lht s.lpht s.metaTab q s.results) j = s.lhtAt j := rfl
@[simp] theorem State.pending_lphtAt (s : State) (q : List OpWord) (j : Nat) :
    State.lphtAt (State.mk s.cfg s.ghr s.pht s.btb s.lht s.lpht s.metaTab q s.results) j = s.lphtAt j := rfl
@[simp] theorem State.pending_metaAt (s : State) (q : List OpWord) (j : Nat) :
    State.metaAt (State.mk s.cfg s.ghr s.pht s.btb s.lht s.lpht s.metaTab q s.results) j = s.metaAt j := rfl

/-! The reset state. -/

@[simp] theorem State.resetOf_cfg (c : Config) : (State.resetOf c).cfg = c := rfl
@[simp] theorem State.resetOf_ghr (c : Config) : (State.resetOf c).ghr = 0 := rfl
@[simp] theorem State.resetOf_pht (c : Config) : (State.resetOf c).pht = [] := rfl
@[simp] theorem State.resetOf_btb (c : Config) : (State.resetOf c).btb = [] := rfl
@[simp] theorem State.resetOf_lht (c : Config) : (State.resetOf c).lht = [] := rfl
@[simp] theorem State.resetOf_lpht (c : Config) : (State.resetOf c).lpht = [] := rfl
@[simp] theorem State.resetOf_metaTab (c : Config) : (State.resetOf c).metaTab = [] := rfl
@[simp] theorem State.resetOf_pending (c : Config) : (State.resetOf c).pending = [] := rfl
@[simp] theorem State.resetOf_results (c : Config) : (State.resetOf c).results = [] := rfl
@[simp] theorem State.resetOf_phtAt (c : Config) (j : Nat) : (State.resetOf c).phtAt j = 0 := rfl
@[simp] theorem State.resetOf_btbAt (c : Config) (j : Nat) : (State.resetOf c).btbAt j = BtbEntry.reset := rfl
@[simp] theorem State.resetOf_lhtAt (c : Config) (j : Nat) : (State.resetOf c).lhtAt j = 0 := rfl
@[simp] theorem State.resetOf_lphtAt (c : Config) (j : Nat) : (State.resetOf c).lphtAt j = 0 := rfl
@[simp] theorem State.resetOf_metaAt (c : Config) (j : Nat) : (State.resetOf c).metaAt j = c.metaReset := rfl

/-- RESET of the block is the reset state with the host's side kept. -/
theorem State.clear_eq (s : State) :
    s.clear = { State.resetOf s.cfg with pending := s.pending, results := s.results } := rfl

/-! The training operations. -/

@[simp] theorem State.trainBtb_false (s : State) (i : Nat) (tag nextPc : Word) :
    s.trainBtb false i tag nextPc = s := rfl

@[simp] theorem State.trainBtb_true (s : State) (i : Nat) (tag nextPc : Word) :
    s.trainBtb true i tag nextPc = s.writeBtb i { valid := true, targetPc := nextPc, tag := tag } := rfl

@[simp] theorem State.trainBtb_cfg (s : State) (k : Bool) (i : Nat) (tag nextPc : Word) :
    (s.trainBtb k i tag nextPc).cfg = s.cfg := by cases k <;> rfl
@[simp] theorem State.trainBtb_ghr (s : State) (k : Bool) (i : Nat) (tag nextPc : Word) :
    (s.trainBtb k i tag nextPc).ghr = s.ghr := by cases k <;> rfl
@[simp] theorem State.trainBtb_pht (s : State) (k : Bool) (i : Nat) (tag nextPc : Word) :
    (s.trainBtb k i tag nextPc).pht = s.pht := by cases k <;> rfl
@[simp] theorem State.trainBtb_lht (s : State) (k : Bool) (i : Nat) (tag nextPc : Word) :
    (s.trainBtb k i tag nextPc).lht = s.lht := by cases k <;> rfl
@[simp] theorem State.trainBtb_lpht (s : State) (k : Bool) (i : Nat) (tag nextPc : Word) :
    (s.trainBtb k i tag nextPc).lpht = s.lpht := by cases k <;> rfl
@[simp] theorem State.trainBtb_metaTab (s : State) (k : Bool) (i : Nat) (tag nextPc : Word) :
    (s.trainBtb k i tag nextPc).metaTab = s.metaTab := by cases k <;> rfl
@[simp] theorem State.trainBtb_pending (s : State) (k : Bool) (i : Nat) (tag nextPc : Word) :
    (s.trainBtb k i tag nextPc).pending = s.pending := by cases k <;> rfl
@[simp] theorem State.trainBtb_results (s : State) (k : Bool) (i : Nat) (tag nextPc : Word) :
    (s.trainBtb k i tag nextPc).results = s.results := by cases k <;> rfl
@[simp] theorem State.trainBtb_phtAt (s : State) (k : Bool) (i : Nat) (tag nextPc : Word) (j : Nat) :
    (s.trainBtb k i tag nextPc).phtAt j = s.phtAt j := by cases k <;> rfl
@[simp] theorem State.trainBtb_btbAt (s : State) (k : Bool) (i : Nat) (tag nextPc : Word) (j : Nat) :
    (s.trainBtb k i tag nextPc).btbAt j =
      if k = true ∧ j = i then BtbEntry.mk true nextPc tag else s.btbAt j := by
  cases k <;> simp
@[simp] theorem State.trainBtb_lhtAt (s : State) (k : Bool) (i : Nat) (tag nextPc : Word) (j : Nat) :
    (s.trainBtb k i tag nextPc).lhtAt j = s.lhtAt j := by cases k <;> rfl
@[simp] theorem State.trainBtb_lphtAt (s : State) (k : Bool) (i : Nat) (tag nextPc : Word) (j : Nat) :
    (s.trainBtb k i tag nextPc).lphtAt j = s.lphtAt j := by cases k <;> rfl
@[simp] theorem State.trainBtb_metaAt (s : State) (k : Bool) (i : Nat) (tag nextPc : Word) (j : Nat) :
    (s.trainBtb k i tag nextPc).metaAt j = s.metaAt j := by cases k <;> rfl

end Sys2Proof.Machine
end

