-- ==== Sys2Proof/Laws/Exec.lean ====
section
/-! SUPPORT. One spec lemma per operation: what it reads and writes, field by field and entry by entry; what `exec` and `step`
can do; and that every operation keeps the canonical form of the tables. -/

namespace Sys2Proof.Machine

/-! ### `UPDATE.G` (41_gshare.md R101) -/

section Gshare

variable (s : State) (pc nextPc : Word) (taken : Bool)

@[simp] theorem updateG_cfg : (updateG s pc nextPc taken).cfg = s.cfg := by simp [updateG, State.trainPht]

@[simp] theorem updateG_ghr : (updateG s pc nextPc taken).ghr = shiftH s.cfg s.ghr taken := by simp [updateG]

@[simp] theorem updateG_lht : (updateG s pc nextPc taken).lht = s.lht := by simp [updateG, State.trainPht]

@[simp] theorem updateG_lpht : (updateG s pc nextPc taken).lpht = s.lpht := by simp [updateG, State.trainPht]

@[simp] theorem updateG_metaTab : (updateG s pc nextPc taken).metaTab = s.metaTab := by
  simp [updateG, State.trainPht]

@[simp] theorem updateG_pending : (updateG s pc nextPc taken).pending = s.pending := by
  simp [updateG, State.trainPht]

@[simp] theorem updateG_results : (updateG s pc nextPc taken).results = s.results := by
  simp [updateG, State.trainPht]

theorem updateG_phtAt (j : Nat) :
    (updateG s pc nextPc taken).phtAt j =
      if j = phtIndex s.cfg s.ghr pc then sat2 (s.phtAt j) taken else s.phtAt j := by
  by_cases h : j = phtIndex s.cfg s.ghr pc
  · subst h
    simp [updateG, State.trainPht]
  · simp [updateG, State.trainPht, h]

theorem updateG_btbAt (j : Nat) :
    (updateG s pc nextPc taken).btbAt j =
      if taken = true ∧ j = btbIndex s.cfg pc then BtbEntry.mk true nextPc (tagG s.cfg pc)
      else s.btbAt j := by
  simp [updateG, State.trainPht]

theorem updateG_tablesWf (h : s.tablesWf) : (updateG s pc nextPc taken).tablesWf := by
  obtain ⟨hp, hb, hl, hlp, hm⟩ := h
  refine ⟨?_, ?_, ?_, ?_, ?_⟩
  · simpa [updateG, State.trainPht] using Table.wf_write hp (phtIndex_lt s.cfg s.ghr pc) _
  · cases taken
    · simpa [updateG, State.trainPht] using hb
    · simpa [updateG, State.trainPht] using Table.wf_write hb (btbIndex_lt s.cfg pc) _
  · simpa using hl
  · simpa using hlp
  · simpa using hm

end Gshare

/-! ### `UPDATE.T` (42_tournament.md R111) -/

section Tournament

variable (s : State) (pc nextPc : Word) (taken : Bool)

/-- The LPHT entry an UPDATE trains and judges: bound once, from the history before the UPDATE (42_tournament.md R114). -/
def lphtIndexOf (s : State) (pc : Word) : Nat := lphtIndex (s.lhtAt (lhtIndex s.cfg pc))

theorem lphtIndexOf_eq : lphtIndexOf s pc = (s.lhtAt (pc.toNat / 4 % 2 ^ s.cfg.B)).toNat := by
  rw [lphtIndexOf, lphtIndex_eq, lhtIndex_eq, btbIndex_eq]

@[simp] theorem updateT_cfg : (updateT s pc nextPc taken).cfg = s.cfg := by
  simp [updateT, State.trainPht, State.trainLpht, State.trainLht, State.trainMeta]

@[simp] theorem updateT_ghr : (updateT s pc nextPc taken).ghr = s.ghr := by
  simp [updateT, State.trainPht, State.trainLpht, State.trainLht, State.trainMeta]

@[simp] theorem updateT_pending : (updateT s pc nextPc taken).pending = s.pending := by
  simp [updateT, State.trainPht, State.trainLpht, State.trainLht, State.trainMeta]

@[simp] theorem updateT_results : (updateT s pc nextPc taken).results = s.results := by
  simp [updateT, State.trainPht, State.trainLpht, State.trainLht, State.trainMeta]

theorem updateT_phtAt (j : Nat) :
    (updateT s pc nextPc taken).phtAt j =
      if j = phtIndex s.cfg s.ghr pc then sat2 (s.phtAt j) taken else s.phtAt j := by
  by_cases h : j = phtIndex s.cfg s.ghr pc
  · subst h
    simp [updateT, State.trainPht, State.trainLpht, State.trainLht, State.trainMeta]
  · simp [updateT, State.trainPht, State.trainLpht, State.trainLht, State.trainMeta, h]

theorem updateT_lphtAt (j : Nat) :
    (updateT s pc nextPc taken).lphtAt j =
      if j = lphtIndexOf s pc then sat2 (s.lphtAt j) taken else s.lphtAt j := by
  unfold lphtIndexOf
  by_cases h : j = lphtIndex (s.lhtAt (lhtIndex s.cfg pc))
  · subst h
    simp [updateT, State.trainPht, State.trainLpht, State.trainLht, State.trainMeta]
  · simp [updateT, State.trainPht, State.trainLpht, State.trainLht, State.trainMeta, h]

theorem updateT_lhtAt (j : Nat) :
    (updateT s pc nextPc taken).lhtAt j =
      if j = lhtIndex s.cfg pc then shift8 (s.lhtAt j) taken else s.lhtAt j := by
  by_cases h : j = lhtIndex s.cfg pc
  · subst h
    simp [updateT, State.trainPht, State.trainLpht, State.trainLht, State.trainMeta]
  · simp [updateT, State.trainPht, State.trainLpht, State.trainLht, State.trainMeta, h]

/-- The meta counter moves by the correctness of the two updated counters (42_tournament.md R111 steps (c), (d), R115). -/
theorem updateT_metaAt (j : Nat) :
    (updateT s pc nextPc taken).metaAt j =
      if j = btbIndex s.cfg pc then
        metaNext (s.metaAt j) (postCorrect (s.phtAt (phtIndex s.cfg s.ghr pc)) taken)
          (postCorrect (s.lphtAt (lphtIndexOf s pc)) taken)
      else s.metaAt j := by
  by_cases h : j = btbIndex s.cfg pc
  · subst h
    simp [updateT, State.trainPht, State.trainLpht, State.trainLht, State.trainMeta, postCorrect, lphtIndexOf]
  · simp [updateT, State.trainPht, State.trainLpht, State.trainLht, State.trainMeta, h]

theorem updateT_btbAt (j : Nat) :
    (updateT s pc nextPc taken).btbAt j =
      if taken = true ∧ j = btbIndex s.cfg pc then BtbEntry.mk true nextPc (tagT s.cfg pc)
      else s.btbAt j := by
  simp [updateT, State.trainPht, State.trainLpht, State.trainLht, State.trainMeta]

theorem updateT_tablesWf (h : s.tablesWf) : (updateT s pc nextPc taken).tablesWf := by
  obtain ⟨hp, hb, hl, hlp, hm⟩ := h
  refine ⟨?_, ?_, ?_, ?_, ?_⟩
  · simpa [updateT, State.trainPht, State.trainLpht, State.trainLht, State.trainMeta] using
      Table.wf_write hp (phtIndex_lt s.cfg s.ghr pc) _
  · cases taken
    · simpa [updateT, State.trainPht, State.trainLpht, State.trainLht, State.trainMeta] using hb
    · simpa [updateT, State.trainPht, State.trainLpht, State.trainLht, State.trainMeta] using
        Table.wf_write hb (btbIndex_lt s.cfg pc) _
  · simpa [updateT, State.trainPht, State.trainLpht, State.trainLht, State.trainMeta] using
      Table.wf_write hl (lhtIndex_lt s.cfg pc) _
  · simpa [updateT, State.trainPht, State.trainLpht, State.trainLht, State.trainMeta] using
      Table.wf_write hlp (lphtIndex_lt _) _
  · simpa [updateT, State.trainPht, State.trainLpht, State.trainLht, State.trainMeta] using
      Table.wf_write hm (btbIndex_lt s.cfg pc) _

end Tournament

theorem clear_tablesWf (s : State) : s.clear.tablesWf :=
  ⟨Table.wf_nil _ _, Table.wf_nil _ _, Table.wf_nil _ _, Table.wf_nil _ _, Table.wf_nil _ _⟩

/-! ### The operation of the instance's variant -/

@[simp] theorem update_cfg (s : State) (pc n : Word) (k : Bool) : (update s pc n k).cfg = s.cfg := by
  unfold update
  split <;> simp

@[simp] theorem update_pending (s : State) (pc n : Word) (k : Bool) :
    (update s pc n k).pending = s.pending := by
  unfold update
  split <;> simp

@[simp] theorem update_results (s : State) (pc n : Word) (k : Bool) :
    (update s pc n k).results = s.results := by
  unfold update
  split <;> simp

/-- The state after an operation (30_encoding.md R60, R69). -/
def applyOp (s : State) (o : Op) : State :=
  match o with
  | .predict pc => s.emit (predict s pc)
  | .update pc n k => update s pc n k
  | .reset => s.clear

@[simp] theorem applyOp_cfg (s : State) (o : Op) : (applyOp s o).cfg = s.cfg := by
  cases o <;> simp [applyOp]

@[simp] theorem applyOp_pending (s : State) (o : Op) : (applyOp s o).pending = s.pending := by
  cases o <;> simp [applyOp]

/-- The row an instance's VARIANT gives an operation always completes. -/
theorem exec_toInstr (o : Op) (s : State) :
    exec (o.toInstr s.cfg.variant) s = .next (applyOp s o) := by
  cases hv : s.cfg.variant <;> cases o <;>
    simp [exec, execPredictG, execUpdateG, execPredictT, execUpdateT, execReset, Op.toInstr, applyOp,
      predict, update, hv]

/-- A step whose word is an operation. -/
theorem step_of_decodeOp {s : State} {w : OpWord} {rest : List OpWord} {o : Op}
    (hp : s.pending = w :: rest) (hd : decodeOp w = .ok o) :
    step s = .next (applyOp { s with pending := rest } o) := by
  have h := exec_toInstr o { s with pending := rest }
  simp only at h
  simp only [step, hp, decode, hd, h]

/-- The state after operations (20_memory.md R48). -/
def applyOps (s : State) (ops : List Op) : State := ops.foldl applyOp s

theorem runOps_eq (ops : List Op) (s : State) : runOps ops s = .next (applyOps s ops) := by
  induction ops generalizing s with
  | nil => rfl
  | cons o ops ih =>
    have h := ih (applyOp s o)
    simp only [runOps, applyOp_cfg] at h
    simp only [runOps, List.map_cons, runInstrs, exec_toInstr, h]
    rfl

/-! ### `exec` and `step` -/

/-- Everything `exec` can do: the row is one of the instance's and runs, or it is not and is refused (30_encoding.md R69). -/
theorem exec_cases (i : Instr) (s : State) :
    (∃ pc, i = .predictG pc ∧ s.cfg.variant = .gshare ∧ exec i s = .next (s.emit (predictG s pc))) ∨
    (∃ pc n k, i = .updateG pc n k ∧ s.cfg.variant = .gshare ∧ exec i s = .next (updateG s pc n k)) ∨
    (∃ pc, i = .predictT pc ∧ s.cfg.variant = .tournament ∧ exec i s = .next (s.emit (predictT s pc))) ∨
    (∃ pc n k, i = .updateT pc n k ∧ s.cfg.variant = .tournament ∧ exec i s = .next (updateT s pc n k)) ∨
    (i = .reset ∧ exec i s = .next s.clear) ∨
    (i.wf s.cfg.variant = false ∧ exec i s = .refused .wrongVariant) := by
  cases hv : s.cfg.variant
  · cases i with
    | predictG pc => exact .inl ⟨pc, rfl, rfl, if_pos hv⟩
    | updateG pc n k => exact .inr (.inl ⟨pc, n, k, rfl, rfl, if_pos hv⟩)
    | predictT pc => simp [exec, execPredictT, Instr.wf, hv]
    | updateT pc n k => simp [exec, execUpdateT, Instr.wf, hv]
    | reset => simp [exec, execReset]
  · cases i with
    | predictG pc => simp [exec, execPredictG, Instr.wf, hv]
    | updateG pc n k => simp [exec, execUpdateG, Instr.wf, hv]
    | predictT pc => exact .inr (.inr (.inl ⟨pc, rfl, rfl, if_pos hv⟩))
    | updateT pc n k => exact .inr (.inr (.inr (.inl ⟨pc, n, k, rfl, rfl, if_pos hv⟩)))
    | reset => simp [exec, execReset]

/-- What a next state of `exec` is (the inversion of the dispatch). -/
theorem exec_next {i : Instr} {s t : State} (h : exec i s = .next t) :
    (∃ pc, i = .predictG pc ∧ s.cfg.variant = .gshare ∧ t = s.emit (predictG s pc)) ∨
    (∃ pc n k, i = .updateG pc n k ∧ s.cfg.variant = .gshare ∧ t = updateG s pc n k) ∨
    (∃ pc, i = .predictT pc ∧ s.cfg.variant = .tournament ∧ t = s.emit (predictT s pc)) ∨
    (∃ pc n k, i = .updateT pc n k ∧ s.cfg.variant = .tournament ∧ t = updateT s pc n k) ∨
    (i = .reset ∧ t = s.clear) := by
  rcases exec_cases i s with ⟨pc, hi, hv, he⟩ | ⟨pc, n, k, hi, hv, he⟩ | ⟨pc, hi, hv, he⟩ |
    ⟨pc, n, k, hi, hv, he⟩ | ⟨hi, he⟩ | ⟨-, he⟩ <;> rw [h] at he
  · exact .inl ⟨pc, hi, hv, by simpa using he⟩
  · exact .inr (.inl ⟨pc, n, k, hi, hv, by simpa using he⟩)
  · exact .inr (.inr (.inl ⟨pc, hi, hv, by simpa using he⟩))
  · exact .inr (.inr (.inr (.inl ⟨pc, n, k, hi, hv, by simpa using he⟩)))
  · exact .inr (.inr (.inr (.inr ⟨hi, by simpa using he⟩)))
  · cases he

/-- No operation changes the construction parameters (10_state.md R30). -/
theorem exec_cfg {i : Instr} {s t : State} (h : exec i s = .next t) : t.cfg = s.cfg := by
  rcases exec_next h with ⟨pc, -, -, rfl⟩ | ⟨pc, n, k, -, -, rfl⟩ | ⟨pc, -, -, rfl⟩ |
    ⟨pc, n, k, -, -, rfl⟩ | ⟨-, rfl⟩ <;> simp

/-- Every operation keeps the canonical form of every table. -/
theorem exec_tablesWf {i : Instr} {s t : State} (h : exec i s = .next t) (hw : s.tablesWf) :
    t.tablesWf := by
  rcases exec_next h with ⟨pc, -, -, rfl⟩ | ⟨pc, n, k, -, -, rfl⟩ | ⟨pc, -, -, rfl⟩ |
    ⟨pc, n, k, -, -, rfl⟩ | ⟨-, rfl⟩
  · exact hw
  · exact updateG_tablesWf s pc n k hw
  · exact hw
  · exact updateT_tablesWf s pc n k hw
  · exact clear_tablesWf s

/-- What a next state of `step` is: nothing was presented, or the oldest word was decoded and its row ran. -/
theorem step_next {s t : State} (h : step s = .next t) :
    (s.pending = [] ∧ t = s) ∨
    (∃ w rest i, s.pending = w :: rest ∧ decode s.cfg.variant w = .ok i ∧
      exec i { s with pending := rest } = .next t) := by
  unfold step at h
  split at h
  · rename_i hp
    exact .inl ⟨hp, by simpa using h.symm⟩
  · rename_i w rest hp
    split at h
    · rename_i i hd
      exact .inr ⟨w, rest, i, hp, hd, h⟩
    · cases h

/-- A decoded row is a row of the instance (30_encoding.md R69). -/
theorem decode_wf {v : Variant} {w : OpWord} {i : Instr} (h : decode v w = .ok i) : i.wf v = true := by
  unfold decode at h
  split at h
  · rename_i o _
    cases h
    cases v <;> cases o <;> rfl
  · cases h

end Sys2Proof.Machine
end

