-- ==== Sys2Proof/Laws/PerInstr.lean ====
section
/-! SUPPORT. Statements about every constructor of `Instr`, one lemma each: where the canonical word of a row holds its operands,
and that the fields the row ignores are zero in it (30_encoding.md R62, R63, R65). -/

namespace Sys2Proof.Laws.FieldsPlaced

/-- The three operand fields of the canonical word of `i`. -/
def Statement (i : Instr) : Prop :=
  match i with
  | .predictG pc => OpWord.pcField (encode i) = pc ∧ OpWord.nextPcField (encode i) = 0 ∧ OpWord.takenField (encode i) = false
  | .updateG pc n k => OpWord.pcField (encode i) = pc ∧ OpWord.nextPcField (encode i) = n ∧ OpWord.takenField (encode i) = k
  | .predictT pc => OpWord.pcField (encode i) = pc ∧ OpWord.nextPcField (encode i) = 0 ∧ OpWord.takenField (encode i) = false
  | .updateT pc n k => OpWord.pcField (encode i) = pc ∧ OpWord.nextPcField (encode i) = n ∧ OpWord.takenField (encode i) = k
  | .reset => OpWord.pcField (encode i) = 0 ∧ OpWord.nextPcField (encode i) = 0 ∧ OpWord.takenField (encode i) = false

theorem assemble_toNat (opc : BitVec 2) (k : Bool) (n pc : Word) :
    (OpWord.assemble opc k n pc).toNat =
      opc.toNat * 2 ^ 65 + k.toNat * 2 ^ 64 + n.toNat * 2 ^ 32 + pc.toNat := by
  have := opc.isLt
  have := k.toNat_le
  have := n.isLt
  have := pc.isLt
  rw [OpWord.assemble, BitVec.toNat_ofNat, Nat.mod_eq_of_lt (by omega)]

theorem pcField_assemble (opc : BitVec 2) (k : Bool) (n pc : Word) :
    OpWord.pcField (OpWord.assemble opc k n pc) = pc := by
  apply BitVec.eq_of_toNat_eq
  rw [OpWord.pcField, BitVec.extractLsb'_toNat, assemble_toNat, Nat.shiftRight_zero]
  have := pc.isLt
  omega

theorem nextPcField_assemble (opc : BitVec 2) (k : Bool) (n pc : Word) :
    OpWord.nextPcField (OpWord.assemble opc k n pc) = n := by
  apply BitVec.eq_of_toNat_eq
  rw [OpWord.nextPcField, BitVec.extractLsb'_toNat, assemble_toNat, Nat.shiftRight_eq_div_pow]
  have := n.isLt
  have := pc.isLt
  omega

theorem takenField_assemble (opc : BitVec 2) (k : Bool) (n pc : Word) :
    OpWord.takenField (OpWord.assemble opc k n pc) = k := by
  have := n.isLt
  have := pc.isLt
  rw [OpWord.takenField, BitVec.getLsbD, assemble_toNat, Nat.testBit_eq_decide_div_mod_eq]
  cases k <;> simp <;> omega

theorem predictG (pc : Word) : Statement (.predictG pc) :=
  ⟨pcField_assemble _ _ _ _, nextPcField_assemble _ _ _ _, takenField_assemble _ _ _ _⟩

theorem updateG (pc n : Word) (k : Bool) : Statement (.updateG pc n k) :=
  ⟨pcField_assemble _ _ _ _, nextPcField_assemble _ _ _ _, takenField_assemble _ _ _ _⟩

theorem predictT (pc : Word) : Statement (.predictT pc) :=
  ⟨pcField_assemble _ _ _ _, nextPcField_assemble _ _ _ _, takenField_assemble _ _ _ _⟩

theorem updateT (pc n : Word) (k : Bool) : Statement (.updateT pc n k) :=
  ⟨pcField_assemble _ _ _ _, nextPcField_assemble _ _ _ _, takenField_assemble _ _ _ _⟩

theorem reset : Statement .reset :=
  ⟨pcField_assemble _ _ _ _, nextPcField_assemble _ _ _ _, takenField_assemble _ _ _ _⟩

end Sys2Proof.Laws.FieldsPlaced
end

