-- ==== Sys2Proof/Tests/Slice0.lean ====
section
/-! SUPPORT. Tests whose expected values are those of spec/95_test_vectors.md (named by their vector) or of a rule's worked
example, the smoke tests of the well-formedness checks, and for every obligation with hypotheses a witness that meets
them. -/

open Sys2Proof Sys2Proof.Machine

namespace Sys2Proof.Tests

/-! ### Small instances and states -/

def cG : Config := { variant := .gshare, B := 2, H := 2, metaReset := 0 }
def cT : Config := { variant := .tournament, B := 2, H := 2, metaReset := 0 }
def cG0 : Config := { variant := .gshare, B := 0, H := 1, metaReset := 0 }
def cG1 : Config := { variant := .gshare, B := 1, H := 3, metaReset := 0 }
def cGmax : Config := { variant := .gshare, B := 31, H := 32, metaReset := 0 }
def cT7 : Config := { variant := .tournament, B := 2, H := 1, metaReset := 7 }

/-- The next state, where there is one. -/
def after (o : Host.Outcome State Fault Refusal) : Option State :=
  match o with
  | .next t => some t
  | .fault _ => none
  | .refused _ => none

/-- The refusal, where there is one. -/
def refusalOf (o : Host.Outcome State Fault Refusal) : Option Refusal :=
  match o with
  | .next _ => none
  | .fault _ => none
  | .refused r => some r

/-- The worked example of 41_gshare.md R100. -/
def exampleG : State :=
  { State.resetOf cG with ghr := 3, pht := [(3, 2)], btb := [(0, BtbEntry.mk true 0x200 0x10)] }

/-- The worked example of 42_tournament.md R110 with the meta counter `m`. -/
def exampleT (m : Counter3) : State :=
  { State.resetOf cT with
    pht := [(0, 3)], lht := [(0, 0x1F)], btb := [(0, BtbEntry.mk true 0x200 0x40)], metaTab := [(0, m)] }

/-! ### Decoding and encoding (V1) -/

theorem test_decode_predictG : decode .gshare 0x000000000FFFFFFFC = .ok (.predictG 0xFFFFFFFC) := by rfl

theorem test_decode_predictT : decode .tournament 0x00000000000000100 = .ok (.predictT 0x100) := by rfl

theorem test_decode_updateG :
    decode .gshare 0x3CAFEF00CDEADBEEC = .ok (.updateG 0xDEADBEEC 0xCAFEF00C true) := by rfl

theorem test_decode_updateT :
    decode .tournament 0x20000010400000100 = .ok (.updateT 0x100 0x104 false) := by rfl

theorem test_decode_reset :
    decode .gshare 0x40000000000000000 = .ok .reset ∧ decode .tournament 0x40000000000000000 = .ok .reset :=
  ⟨rfl, rfl⟩

/-- V1, the non-canonical and the reserved rows, and the neighbours of the reserved word. -/
theorem test_decode_corners :
    decode .gshare 0x10000123400000100 = .ok (.predictG 0x100) ∧
    decode .tournament 0x5FFFFFFFFFFFFFFFF = .ok .reset ∧
    decode .gshare 0x60000000000000000 = .error .reservedOpcode ∧
    decode .tournament 0x7FFFFFFFFFFFFFFFF = .error .reservedOpcode ∧
    decode .gshare 0x20000000000000000 = .ok (.updateG 0 0 false) := ⟨rfl, rfl, rfl, rfl, rfl⟩

theorem test_encode :
    encode (.predictG 0x100) = 0x00000000000000100 ∧ encode (.predictT 0xFFFFFFFC) = 0x000000000FFFFFFFC ∧
    encode (.updateG 0x100 0x200 true) = 0x30000020000000100 ∧
    encode (.updateT 0xFFFFFFFC 0x80 true) = 0x300000080FFFFFFFC ∧
    encode .reset = 0x40000000000000000 := by decide

/-- A table word reaches the decoder with the bits above its length zero; a longer number has no bit above 66. -/
theorem test_decodeTableWord :
    decodeTableWord 72 0x30000020000000100 = some (.updateG 0x100 0x200 true) ∧
    decodeTableWord 72 0x40000000000000000 = some .reset ∧
    decodeTableWord 72 0x60000000000000000 = none ∧
    decodeTableWord 32 0x30000020000000100 = some (.predictG 0x100) := by decide

/-- A presented word is what the next step runs. -/
theorem test_withFetchWord :
    (after (step (State.reset.withFetchWord 72 0x00000000000000100))).map State.results = some [0x104] ∧
    (after (step (State.reset.withFetchWord 72 0x30000020000000100))).map State.ghr = some 1 ∧
    refusalOf (step (State.reset.withFetchWord 72 0x60000000000000000)) = some .reservedOpcode := by decide

/-! ### Well-formedness: each check refuses an ill-formed term -/

theorem test_wf_instr_refuses :
    Instr.wf .tournament (.predictG 0) = false ∧ Instr.wf .tournament (.updateG 0 0 true) = false ∧
    Instr.wf .gshare (.predictT 0) = false ∧ Instr.wf .gshare (.updateT 0 0 true) = false := by decide

theorem test_wf_instr_accepts :
    Instr.wf .gshare (.predictG 0) = true ∧ Instr.wf .gshare (.updateG 0 0 true) = true ∧
    Instr.wf .tournament (.predictT 0) = true ∧ Instr.wf .tournament (.updateT 0 0 true) = true ∧
    Instr.wf .gshare .reset = true ∧ Instr.wf .tournament .reset = true := by decide

/-- V9: the illegal parameter sets, one for each condition of 00_scope.md R9 and row 5 of 60_exceptions.md R131. -/
theorem test_wf_params_refuses :
    Params.wf ⟨.gshare, 0, 2, 0⟩ = false ∧ Params.wf ⟨.gshare, 3, 2, 0⟩ = false ∧
    Params.wf ⟨.gshare, 0xFFFFFFFF, 2, 0⟩ = false ∧ Params.wf ⟨.gshare, 4, 0, 0⟩ = false ∧
    Params.wf ⟨.gshare, 4, 33, 0⟩ = false ∧ Params.wf ⟨.tournament, 4, 2, 8⟩ = false := by decide

/-- V9: the nearest accepted neighbours. -/
theorem test_wf_params_accepts :
    Params.wf ⟨.gshare, 1, 1, 0⟩ = true ∧ Params.wf ⟨.gshare, 2, 32, 0⟩ = true ∧
    Params.wf ⟨.gshare, 0x80000000, 32, 0⟩ = true ∧ Params.wf ⟨.tournament, 4, 2, 7⟩ = true ∧
    Params.wf ⟨.gshare, 4, 2, 8⟩ = true := by decide

/-- V9: the reasons of the refusals. -/
theorem test_construct_refusals :
    refusalOf (construct ⟨.gshare, 0, 0, 0⟩) = some (.configError .btbSizeZero) ∧
    refusalOf (construct ⟨.gshare, 12, 0, 0⟩) = some (.configError .btbSizeNotPowerOfTwo) ∧
    refusalOf (construct ⟨.tournament, 4, 0, 8⟩) = some (.configError .historyWidthZero) ∧
    refusalOf (construct ⟨.tournament, 4, 33, 8⟩) = some (.configError .historyWidthTooLarge) ∧
    refusalOf (construct ⟨.tournament, 4, 2, 8⟩) = some (.configError .metaResetOutOfRange) := by decide

theorem test_construct_instance :
    (after (construct ⟨.tournament, 0x80000000, 32, 7⟩)).map
      (fun s => (s.cfg.B, s.cfg.H, s.cfg.metaReset, s.metaAt 0)) = some (31, 32, 7, 7) := by decide

/-! ### One step of each instruction -/

/-- 41_gshare.md R100, the worked example: a hit, and a miss by tag. -/
theorem test_predictG_example :
    (after (exec (.predictG 0x100) exampleG)).map State.results = some [0x200] ∧
    (after (exec (.predictG 0x110) exampleG)).map State.results = some [0x114] := by decide

/-- 40_indexing_and_primitives.md R95: the sequential sum wraps. -/
theorem test_predictG_wraps :
    (after (exec (.predictG 0xFFFFFFFC) State.reset)).map State.results = some [0] ∧
    (after (exec (.predictG 0xFFFFFFFF) State.reset)).map State.results = some [3] := by decide

/-- 41_gshare.md R101, the worked example: the first and the second identical UPDATE. -/
theorem test_updateG_example :
    (after (exec (.updateG 0x100 0x200 true) State.reset)).map (fun t => (t.pht, t.ghr, t.btb)) =
      some ([(0, 1)], 1, [(0, BtbEntry.mk true 0x200 0x10)]) ∧
    (after (runInstrs [.updateG 0x100 0x200 true, .updateG 0x100 0x200 true] State.reset)).map
      (fun t => (t.pht, t.ghr)) = some ([(0, 1), (1, 1)], 3) := by decide

/-- P2 line 10: a not-taken UPDATE lowers the counter, shifts a 0 in and leaves the BTB entry. -/
theorem test_updateG_not_taken :
    (after (exec (.updateG 0x100 0x104 false) { exampleG with pht := [(3, 3)] })).map
      (fun t => (t.pht, t.ghr, t.btb)) =
      some ([(3, 2)], 2, [(0, BtbEntry.mk true 0x200 0x10)]) := by decide

/-- V8: the global sub-predictor at 4, the local one at 3. -/
theorem test_predictT_arbitration :
    (after (exec (.predictT 0x100) (exampleT 4))).map State.results = some [0x200] ∧
    (after (exec (.predictT 0x100) (exampleT 3))).map State.results = some [0x104] := by decide

/-- V8: another PC of the same index uses the meta counter and the history but not the target. -/
theorem test_predictT_tag :
    (after (exec (.predictT 0x110) (exampleT 4))).map State.results = some [0x114] := by decide

/-- 42_tournament.md R111, the worked example: the first and the second identical UPDATE. -/
theorem test_updateT_example :
    (after (exec (.updateT 0x100 0x200 true) (State.resetOf cT))).map (fun t => [t.pht, t.lpht]) =
      some [[(0, 1)], [(0, 1)]] ∧
    (after (runInstrs [.updateT 0x100 0x200 true, .updateT 0x100 0x200 true] (State.resetOf cT))).map
      (fun t => ([t.pht, t.lpht], t.lht, t.metaTab)) =
      some ([[(0, 2)], [(0, 1), (1, 1)]], [(0, 3)], [(0, 1)]) := by decide

/-- V7, row `(g, l, taken) = (3, 2, N)`: both predicted taken and both were wrong, yet META moves down. -/
theorem test_updateT_anomaly :
    (after (exec (.updateT 0x100 0x104 false) { exampleT 4 with lpht := [(0x1F, 2)] })).map
      (fun t => (t.phtAt 0, t.lphtAt 0x1F, t.lhtAt 0, t.metaAt 0, t.ghr)) = some (2, 1, 0x3E, 3, 0) := by decide

/-- V9: RESET with `META_RESET = 7`, and RESET leaves the parameters and what was observed alone. -/
theorem test_reset :
    (after (exec .reset { State.resetOf cT7 with ghr := 1, metaTab := [(0, 2)], results := [5] })).map
      (fun t => (t.ghr, t.metaAt 0, t.results, t.cfg.metaReset)) = some (0, 7, [5], 7) := by decide

/-- 30_encoding.md R61: with RESET and UPDATE at one edge, RESET wins. -/
theorem test_reset_over_update :
    (clockEdge exampleG ⟨true, 0, true, 0x100, 0x300, true⟩).btbAt 0 = BtbEntry.reset := by decide

/-! ### Traces (30_encoding.md R67) -/

theorem test_parse_predict :
    lineOfPieces? (pieces [] ['p', 'r', 'e', 'd', 'i', 'c', 't', ' ', '0', 'x', '1', '0', '0', ' ', '-', '>', ' ',
      '0', 'x', '1', '0', '4', ' ', ';', 'x']) = some (.predict 0x100 (some 0x104)) := by decide

theorem test_parse_update :
    lineOfPieces? (pieces [] ['u', 'p', 'd', 'a', 't', 'e', ' ', '2', '5', '6', ',', ' ', '0', 'x', '2', '0', '0', ',',
      ' ', 'T']) = some (.update 0x100 0x200 true) := by decide

theorem test_parse_config :
    lineOfPieces? (pieces [] ['c', 'o', 'n', 'f', 'i', 'g', ' ', ' ', 'G', 'S', 'H', 'A', 'R', 'E', ' ', 'B', 'T', 'B',
      '_', 'S', 'I', 'Z', 'E', '=', '4', ' ', 'H', '=', '2']) = some (.config ⟨.gshare, 4, 2, 0⟩) := by decide

theorem test_pseudo_operations :
    TraceLine.toOp? (.notTaken 0xFFFFFFFC) = some (.update 0xFFFFFFFC 0 false) ∧
    TraceLine.toOp? (.takenTo 0x100 0x200) = some (.update 0x100 0x200 true) := by decide

/-! ### Witnesses: the hypotheses of every obligation can be met, clause by clause -/

def portsIdle : Ports := ⟨false, 0x100, false, 0, 0, false⟩
def portsUpdate : Ports := ⟨false, 0x100, true, 0x100, 0x200, true⟩
def portsReset : Ports := ⟨true, 0x100, true, 0x100, 0x200, true⟩

/-- A TOURNAMENT state whose every part of the premise of R116 holds at site 0: local counters right, global counter wrong. -/
def localRight : State :=
  { State.resetOf cT7 with lht := [(0, 0xFF)], lpht := [(0xFF, 3)], metaTab := [(0, 4)] }

theorem witness_DecodeReadsOpcodeAndFields :
    (0x1FFFFFFFFFFFFFFFF : OpWord).toNat / 2 ^ 65 = 0 ∧ (0x20000000000000000 : OpWord).toNat / 2 ^ 65 = 1 ∧
    (0x3FFFFFFFFFFFFFFFF : OpWord).toNat / 2 ^ 65 = 1 ∧ (0x40000000000000000 : OpWord).toNat / 2 ^ 65 = 2 ∧
    (0x5FFFFFFFFFFFFFFFF : OpWord).toNat / 2 ^ 65 = 2 ∧ (0x60000000000000000 : OpWord).toNat / 2 ^ 65 = 3 ∧
    (0x7FFFFFFFFFFFFFFFF : OpWord).toNat / 2 ^ 65 = 3 := by decide

theorem witness_DecodeEncodeAgree :
    Instr.wf .gshare (.updateG 0xFFFFFFFF 0xFFFFFFFF true) = true ∧
    Instr.wf .tournament (.predictT 0xFFFFFFFF) = true ∧ Instr.wf .tournament .reset = true := by decide

theorem witness_EncodeDecodeClearsIgnoredFields :
    (decode .gshare 0x1FFFFFFFFFFFFFFFF = .ok (.predictG 0xFFFFFFFF) ∧
      (0x1FFFFFFFFFFFFFFFF : OpWord).toNat / 2 ^ 65 = 0) ∧
    (decode .tournament 0x3FFFFFFFFFFFFFFFF = .ok (.updateT 0xFFFFFFFF 0xFFFFFFFF true) ∧
      (0x3FFFFFFFFFFFFFFFF : OpWord).toNat / 2 ^ 65 = 1) ∧
    (decode .gshare 0x5FFFFFFFFFFFFFFFF = .ok .reset ∧ (0x5FFFFFFFFFFFFFFFF : OpWord).toNat / 2 ^ 65 = 2) :=
  ⟨⟨rfl, rfl⟩, ⟨rfl, rfl⟩, ⟨rfl, rfl⟩⟩

theorem witness_ReservedRefusedAndIgnoredFieldsIgnored :
    ((State.reset.withFetchWord 72 0x7FFFFFFFFFFFFFFFF).pending = 0x7FFFFFFFFFFFFFFFF :: [] ∧
      (0x7FFFFFFFFFFFFFFFF : OpWord).toNat / 2 ^ 65 = 3) ∧
    ((0x10000123400000100 : OpWord).toNat / 2 ^ 65 = 0 ∧ (0x00000000000000100 : OpWord).toNat / 2 ^ 65 = 0 ∧
      (0x10000123400000100 : OpWord).toNat % 2 ^ 32 = (0x00000000000000100 : OpWord).toNat % 2 ^ 32) ∧
    ((0x5FFFFFFFFFFFFFFFF : OpWord).toNat / 2 ^ 65 = 2 ∧ (0x40000000000000000 : OpWord).toNat / 2 ^ 65 = 2) ∧
    (0x5FFFFFFFFFFFFFFFF : OpWord).toNat / 2 ^ 65 ≠ 3 := by decide

theorem witness_StepRunsPresentedWord :
    ((State.reset.withFetchWord 72 0x30000020000000100).pending = 0x30000020000000100 :: [] ∧
      decode State.reset.cfg.variant 0x30000020000000100 = .ok (.updateG 0x100 0x200 true)) ∧
    State.reset.pending = [] := ⟨⟨rfl, rfl⟩, rfl⟩

theorem witness_StepNeverFaults :
    ((State.reset.withFetchWord 72 0x100).pending = 0x100 :: [] ∧ (0x100 : OpWord).toNat / 2 ^ 65 ≠ 3 ∧
      (0x100 : OpWord).toNat / 2 ^ 65 = 0) ∧
    (0x5FFFFFFFFFFFFFFFF : OpWord).toNat / 2 ^ 65 ≠ 3 ∧
    (State.reset.withFetchWord 72 0x60000000000000000).reservedNext :=
  ⟨by decide, by decide, 0x60000000000000000, [], rfl, by decide⟩

theorem witness_OtherVariantRowRefused :
    (State.resetOf cT).cfg.variant = .tournament ∧ State.reset.cfg.variant = .gshare := by decide

theorem witness_StepKeepsParameters :
    step (State.reset.withFetchWord 72 0x40000000000000000) = .next State.reset := by rfl

theorem witness_IndicesAreMaskedIntoRange :
    cG0.B = 0 ∧ (1 : Word).toNat < 2 ^ cG0.H ∧ (0xFFFFFFFF : Word).toNat < 2 ^ cGmax.H ∧
    btbIndex cGmax 0xFFFFFFFF = 2 ^ 30 - 1 := by decide

theorem witness_HistoryShiftersDropOldestOutcome :
    cG0.H = 1 ∧ cGmax.H ≤ 32 ∧ cG.H ≤ 2 ∧ (0 : Nat) ≤ cG.H ∧ (8 : Nat) ≤ 8 := by decide

/-- One site and two sites of one index, for each clause on `B`. -/
theorem witness_TagsTellSitesApart :
    2 ≤ cT.B ∧ cG1.B = 1 ∧ cG0.B = 0 ∧
    (btbIndex cT 0x100 = btbIndex cT 0x103 ∧ tagT cT 0x100 = tagT cT 0x103) ∧
    (btbIndex cT 0x100 = btbIndex cT 0x110 ∧ tagT cT 0x100 ≠ tagT cT 0x110) := by decide

theorem witness_PhtAliasingIsXorOfHistory :
    (0 : Word).toNat < 2 ^ cG.H ∧ (3 : Word).toNat < 2 ^ cG.H ∧
    phtIndex cG 0 0x100 = phtIndex cG 3 0x10C ∧ phtIndex cG 3 0x100 = phtIndex cG 3 0x110 := by decide

theorem witness_PredictGTargetOnTakenHitElseSequential :
    exampleG.cfg.variant = .gshare ∧ portsIdle.predPc = 0x100 ∧
    (0x1FFFFFFFF00000100 : OpWord).toNat / 2 ^ 65 = 0 ∧
    (0x1FFFFFFFF00000100 : OpWord).toNat % 2 ^ 32 = (0x100 : Word).toNat := by decide

theorem witness_UpdateGTrainsOneCounterHistoryAndBtb :
    exampleG.cfg.variant = .gshare ∧ portsUpdate.rst = false ∧ portsUpdate.updValid = true ∧
    portsUpdate.updPc = 0x100 ∧ portsUpdate.updNextPc = 0x200 ∧ portsUpdate.updTaken = true ∧
    (0x30000020000000100 : OpWord).toNat / 2 ^ 65 = 1 ∧
    (0x30000020000000100 : OpWord).toNat % 2 ^ 32 = (0x100 : Word).toNat ∧
    (0x30000020000000100 : OpWord).toNat / 2 ^ 32 % 2 ^ 32 = (0x200 : Word).toNat ∧
    (0x30000020000000100 : OpWord).toNat / 2 ^ 64 % 2 = true.toNat := by decide

/-- P1: with `H = 2`, three UPDATEs are the last that leave the sequential result and four the first that give the target. -/
theorem witness_TakenRunReachesTargetAfterHPlusTwo :
    cG.variant = .gshare ∧ (3 : Nat) ≤ cG.H + 1 ∧ cG.H + 2 ≤ 4 ∧
    cGmax.variant = .gshare ∧ (33 : Nat) ≤ cGmax.H + 1 ∧ cGmax.H + 2 ≤ 34 := by decide

/-- The taken UPDATE of `exampleG` at a counter of 2 keeps the entry; `0x110` collides; then each way to the fallback: an invalid
entry, another tag, a counter of 1. -/
theorem witness_BtbCorrectnessAndFallbackG :
    (exec (.updateG 0x100 0x200 true) exampleG = .next { exampleG with pht := [(3, 3)] } ∧
      2 ≤ ({ exampleG with pht := [(3, 3)] }.phtAt ((0x100 / 4 ^^^ 3) % 2 ^ 2)).toNat ∧
      (0x110 : Word).toNat / 4 % 2 ^ exampleG.cfg.B = (0x100 : Word).toNat / 4 % 2 ^ exampleG.cfg.B ∧
      (0x110 : Word).toNat / 4 ≠ (0x100 : Word).toNat / 4) ∧
    (State.reset.btbAt 0).valid = false ∧ (exampleG.btbAt 0).tag.toNat ≠ (0x110 : Word).toNat / 4 / 2 ^ 2 ∧
    ({ exampleG with pht := [(3, 1)] }.phtAt ((0x100 / 4 ^^^ 3) % 2 ^ 2)).toNat < 2 :=
  ⟨⟨rfl, by decide, by decide, by decide⟩, by decide, by decide, by decide⟩

theorem witness_HistoryHoldsLatestOutcomes :
    exampleG.cfg.variant = .gshare ∧ 0 < exampleG.cfg.H ∧ 1 < exampleG.cfg.H := by decide

theorem witness_GshareRowsIgnoreLocalTables :
    exampleG.cfg.variant = .gshare ∧ Instr.wf .gshare (.updateG 0x100 0x200 true) = true ∧
    Instr.updateG 0x100 0x200 true ≠ .reset ∧ Instr.wf .gshare (.predictG 0x100) = true ∧
    Instr.predictG 0x100 ≠ .reset := by decide

theorem witness_PredictTFollowsSelectedSubPredictor :
    (exampleT 4).cfg.variant = .tournament ∧ portsIdle.predPc = 0x100 ∧
    (0x1FFFFFFFF00000100 : OpWord).toNat / 2 ^ 65 = 0 ∧
    (0x1FFFFFFFF00000100 : OpWord).toNat % 2 ^ 32 = (0x100 : Word).toNat := by decide

theorem witness_UpdateTTrainsAndJudgesUpdatedCounters :
    (exampleT 4).cfg.variant = .tournament ∧ portsUpdate.rst = false ∧ portsUpdate.updValid = true ∧
    portsUpdate.updPc = 0x100 ∧ portsUpdate.updNextPc = 0x200 ∧ portsUpdate.updTaken = true ∧
    (0x30000020000000100 : OpWord).toNat / 2 ^ 65 = 1 ∧
    (0x30000020000000100 : OpWord).toNat % 2 ^ 32 = (0x100 : Word).toNat ∧
    (0x30000020000000100 : OpWord).toNat / 2 ^ 32 % 2 ^ 32 = (0x200 : Word).toNat ∧
    (0x30000020000000100 : OpWord).toNat / 2 ^ 64 % 2 = true.toNat := by decide

theorem witness_MetaMovesByCountersBeforeUpdate : (exampleT 4).cfg.variant = .tournament := by rfl

/-- The four crossings of R115 at site 0: `(g, l)` is `(1, 0)`, `(2, 3)`, `(0, 1)`, `(3, 2)`. -/
theorem witness_CounterCrossingThresholdIsCredited :
    (exampleT 4).cfg.variant = .tournament ∧
    (({ exampleT 4 with pht := [(0, 1)] }.phtAt 0).toNat = 1 ∧ ((exampleT 4).lphtAt 0x1F).toNat = 0) ∧
    (({ exampleT 4 with pht := [(0, 2)] }.phtAt 0).toNat = 2 ∧
      ({ exampleT 4 with lpht := [(0x1F, 3)] }.lphtAt 0x1F).toNat = 3) ∧
    (({ exampleT 4 with pht := [] }.phtAt 0).toNat = 0 ∧
      ({ exampleT 4 with lpht := [(0x1F, 1)] }.lphtAt 0x1F).toNat = 1) ∧
    (((exampleT 4).phtAt 0).toNat = 3 ∧ ({ exampleT 4 with lpht := [(0x1F, 2)] }.lphtAt 0x1F).toNat = 2) := by
  decide

theorem constructed_gshare : Reachable State.reset :=
  Reachable.constructed (p := ⟨.gshare, 4, 2, 0⟩) rfl

theorem constructed_tournament : Reachable (State.resetOf cT) :=
  Reachable.constructed (p := ⟨.tournament, 4, 2, 0⟩) rfl

/-- A trained state that an instance reaches: the first UPDATE of P1, presented and run. -/
theorem witness_ReachableStatesInRange :
    Reachable { State.reset with pht := [(0, 1)], ghr := 1, btb := [(0, BtbEntry.mk true 0x200 0x10)] } :=
  ((constructed_gshare).presented 0x30000020000000100).stepped rfl

theorem witness_TournamentNeverWritesHistory :
    (exec (.predictT 0x100) (State.resetOf cT) = .next { State.resetOf cT with results := [0x104] } ∧
      Instr.predictT 0x100 ≠ .reset) ∧
    Reachable (State.resetOf cT) ∧ (State.resetOf cT).cfg.variant = .tournament :=
  ⟨⟨rfl, by decide⟩, constructed_tournament, rfl⟩

/-- P5 from round 12: site 0 with local right and global wrong, site 2 between; META ends at 3, where PREDICT turns to the local
counter. -/
theorem witness_MetaConvergesToLocalPredictor :
    localRight.cfg.variant = .tournament ∧
    localRightGlobalWrong 0 [⟨0x100, 0x300, true⟩, ⟨0x108, 0x10C, false⟩] localRight ∧
    (after (runOps [.update 0x100 0x300 true, .update 0x108 0x10C false] localRight)).map
      (fun t => (t.metaAt 0).toNat) = some 3 ∧
    (0x100 : Word).toNat / 4 % 2 ^ localRight.cfg.B = 0 :=
  ⟨rfl, ⟨fun _ => by decide, by decide, trivial⟩, by decide, by decide⟩

theorem witness_LocalHistoryHoldsOutcomesOfItsIndex :
    (exampleT 4).cfg.variant = .tournament ∧ (0 : Nat) < 8 ∧ (7 : Nat) < 8 := by decide

/-- META at 4 with other local tables, META at 3 with another PHT and history. -/
theorem witness_UnselectedSubPredictorHasNoInfluence :
    ((exampleT 4).cfg.variant = .tournament ∧ 4 ≤ ((exampleT 4).metaAt 0).toNat ∧
      { exampleT 4 with lht := [], lpht := [(0, 3)] }.metaAt 0 = (exampleT 4).metaAt 0 ∧
      { exampleT 4 with lht := [], lpht := [(0, 3)] }.btbAt 0 = (exampleT 4).btbAt 0 ∧
      { exampleT 4 with lht := [], lpht := [(0, 3)] }.ghr = (exampleT 4).ghr ∧
      ∀ j, { exampleT 4 with lht := [], lpht := [(0, 3)] }.phtAt j = (exampleT 4).phtAt j) ∧
    (((exampleT 3).metaAt 0).toNat < 4 ∧
      { exampleT 3 with pht := [], ghr := 1 }.lhtAt 0 = (exampleT 3).lhtAt 0 ∧
      ∀ j, { exampleT 3 with pht := [], ghr := 1 }.lphtAt j = (exampleT 3).lphtAt j) :=
  ⟨⟨rfl, by decide, rfl, rfl, rfl, fun _ => rfl⟩, by decide, rfl, fun _ => rfl⟩

theorem witness_ResetRestoresEveryElement :
    (exampleT 4).cfg.variant = .tournament ∧ (exampleT 3).cfg = (exampleT 4).cfg ∧
    (exampleT 3).pending = (exampleT 4).pending ∧ (exampleT 3).results = (exampleT 4).results ∧
    portsReset.rst = true ∧ (0x5FFFFFFFFFFFFFFFF : OpWord).toNat / 2 ^ 65 = 2 := by decide

theorem witness_PredictAfterResetIsSequential :
    exec .reset exampleG = .next State.reset ∧ exec .reset (exampleT 4) = .next (State.resetOf cT) := ⟨rfl, rfl⟩

theorem witness_ConstructionRefusesInOrder :
    ((3 : Word) ≠ 0 ∧ (3 : Word) &&& (3 - 1) ≠ 0) ∧
    ((1 : Word) ≠ 0 ∧ (1 : Word) &&& (1 - 1) = 0 ∧ 32 < (33 : Word).toNat) ∧
    ((0x80000000 : Word) ≠ 0 ∧ (0x80000000 : Word) &&& (0x80000000 - 1) = 0 ∧ 1 ≤ (1 : Word).toNat ∧
      (32 : Word).toNat ≤ 32 ∧ 7 < (Params.mk .tournament 1 1 8).metaReset) := by decide

theorem witness_ConstructionAcceptsExactlyLegal :
    Params.wf ⟨.tournament, 0x80000000, 32, 7⟩ = true ∧ Params.wf ⟨.tournament, 0x80000000, 32, 8⟩ = false ∧
    construct ⟨.gshare, 4, 2, 0⟩ = .next State.reset := ⟨by decide, by decide, rfl⟩

theorem witness_ResetStateMeetsInvariant : construct ⟨.tournament, 4, 2, 0⟩ = .next (State.resetOf cT) := by rfl

theorem witness_StepKeepsInvariant :
    { exampleG with pending := [0x40000000000000000] }.Inv ∧
    step { exampleG with pending := [0x40000000000000000] } = .next State.reset := ⟨by decide, rfl⟩

theorem witness_ReachableTagsAreBounded :
    (Reachable State.reset ∧ State.reset.cfg.variant = .gshare) ∧
    (Reachable (State.resetOf cT) ∧ (State.resetOf cT).cfg.variant = .tournament) :=
  ⟨⟨constructed_gshare, rfl⟩, constructed_tournament, rfl⟩

/-- A PREDICT, a taken UPDATE that overwrites a valid entry, and RESET. -/
theorem witness_OnlyResetClearsValid :
    (exec (.updateG 0x110 0x300 true) exampleG =
        .next { exampleG with pht := [(3, 3)], btb := [(0, BtbEntry.mk true 0x300 0x11)] } ∧
      Instr.updateG 0x110 0x300 true ≠ .reset ∧ (exampleG.btbAt 0).valid = true) ∧
    (exec (.predictG 0x100) exampleG = .next { exampleG with results := [0x200] } ∧
      Instr.predictG 0x100 ≠ .reset ∧ (exampleG.btbAt 0).valid = true) ∧
    exec .reset exampleG = .next State.reset := ⟨⟨rfl, by decide, rfl⟩, ⟨rfl, by decide, rfl⟩, rfl⟩

/-- A taken UPDATE of the same index with another tag, in each variant. -/
theorem witness_ColdBranchFallsThrough :
    ((0x110 : Word).toNat / 4 % 2 ^ cG.B = (0x100 : Word).toNat / 4 % 2 ^ cG.B ∧
      (0x110 : Word).toNat / 4 / 2 ^ cG.B ≠ (0x100 : Word).toNat / 4 / 2 ^ cG.B) ∧
    ((0x110 : Word).toNat / 4 % 2 ^ cT.B = (0x100 : Word).toNat / 4 % 2 ^ cT.B ∧
      (0x110 : Word).toNat / 2 ^ cT.B ≠ (0x100 : Word).toNat / 2 ^ cT.B) := by decide

theorem witness_MisalignedPcIsTheSameSite :
    ((0x100 : Word).toNat / 4 = (0x103 : Word).toNat / 4 ∧ exampleG.cfg.variant = .gshare) ∧
    (exampleT 4).cfg.variant = .tournament ∧ 2 ≤ (exampleT 4).cfg.B := by decide

/-- Two states that differ in what an invalid entry holds. -/
theorem witness_InvalidEntriesAreUnobservable :
    State.sameUpToInvalid State.reset { State.reset with btb := [(0, BtbEntry.mk false 0x200 0x10)] } ∧
    State.reset ≠ { State.reset with btb := [(0, BtbEntry.mk false 0x200 0x10)] } := by
  refine ⟨⟨rfl, rfl, rfl, fun _ => rfl, fun _ => rfl, fun _ => rfl, fun _ => rfl, fun i => .inr ⟨rfl, ?_⟩⟩, by decide⟩
  simp only [State.btbAt, Table.read]
  split <;> rfl

theorem witness_ClockEdgeResetWinsElseUpdate :
    portsReset.rst = true ∧ portsReset.updValid = true ∧ (portsUpdate.rst = false ∧ portsUpdate.updValid = true) ∧
    (portsIdle.rst = false ∧ portsIdle.updValid = false) := by decide

/-- A cycle of two operations and one of none. -/
theorem witness_ClockCycleIsItsOperationsInOrder :
    { State.reset with pending := [0x00000000000000100, 0x30000020000000100] }.pending =
      (cycleOps portsUpdate true).map encodeOp ++ [] ∧
    State.reset.pending = (cycleOps portsIdle false).map encodeOp ++ [] := by decide

theorem witness_OperationWordIsOneCycleOfPorts :
    (decodeOp 0x00000000000000100 = .ok (.predict 0x100) ∧ (0x00000000000000100 : OpWord).toNat / 2 ^ 65 = 0) ∧
    (decodeOp 0x30000020000000100 = .ok (.update 0x100 0x200 true) ∧
      (0x30000020000000100 : OpWord).toNat / 2 ^ 65 = 1) ∧
    (decodeOp 0x40000000000000000 = .ok .reset ∧ (0x40000000000000000 : OpWord).toNat / 2 ^ 65 = 2) :=
  ⟨⟨rfl, rfl⟩, ⟨rfl, rfl⟩, ⟨rfl, rfl⟩⟩

/-- The first three lines of P1. -/
theorem witness_TraceRunsItsOperations :
    loadTrace [.config ⟨.gshare, 4, 2, 0⟩, .predict 0x100 (some 0x104), .takenTo 0x100 0x200] =
      .ok { State.reset with pending := [0x00000000000000100, 0x30000020000000100] } := by rfl

end Sys2Proof.Tests
end

section
/-! PROOFS. The counters and histories of every reachable state are in range (10_state.md R32). -/

namespace Sys2Proof.Machine

/-- Construction gives the reset state of some instance or none at all (70_reset_and_hazards.md R151). -/
theorem construct_next {p : Params} {s : State} (h : construct p = .next s) :
    ∃ c : Config, s = State.resetOf c := by
  unfold construct at h
  split_ifs at h
  all_goals exact ⟨_, (Host.Outcome.next.inj h).symm⟩

/-- Induction over the states of an instance: what the reset states have, what does not look at the queue of presented
words and what every operation keeps holds of every reachable state. -/
theorem Reachable.of_exec {P : State → Prop} (hreset : ∀ c : Config, P (State.resetOf c))
    (hqueue : ∀ (s : State) (q : List OpWord), P s → P { s with pending := q })
    (hexec : ∀ (i : Instr) (s t : State), exec i s = .next t → P s → P t)
    {s : State} (h : Reachable s) : P s := by
  induction h with
  | constructed hc =>
    obtain ⟨c, rfl⟩ := construct_next hc
    exact hreset c
  | presented w _ ih => exact hqueue _ _ ih
  | stepped _ hs ih =>
    rcases step_next hs with ⟨-, rfl⟩ | ⟨w, rest, i, -, -, he⟩
    · exact ih
    · exact hexec i _ _ he (hqueue _ rest ih)

/-- `GHR` fits its width: `0 <= GHR <= 2^H - 1` (10_state.md R32). -/
def State.GhrInRange (s : State) : Prop := s.ghr.toNat < 2 ^ s.cfg.H

theorem shiftH_lt (c : Config) (g : Word) (taken : Bool) : (shiftH c g taken).toNat < 2 ^ c.H := by
  rw [shiftH_toNat]
  exact Nat.mod_lt _ (Nat.two_pow_pos _)

/-- Only `UPDATE.G` and RESET write `GHR`: the one with a shift cut to `H` bits, the other with 0. -/
theorem exec_ghrInRange (i : Instr) (s t : State) (h : exec i s = .next t) (hs : s.GhrInRange) :
    t.GhrInRange := by
  rcases exec_next h with ⟨pc, -, -, rfl⟩ | ⟨pc, n, k, -, -, rfl⟩ | ⟨pc, -, -, rfl⟩ |
    ⟨pc, n, k, -, -, rfl⟩ | ⟨-, rfl⟩
  · exact hs
  · simpa [State.GhrInRange] using shiftH_lt s.cfg s.ghr k
  · exact hs
  · simpa [State.GhrInRange] using hs
  · exact Nat.two_pow_pos s.cfg.H

theorem Reachable.ghrInRange {s : State} (h : Reachable s) : s.GhrInRange :=
  h.of_exec (fun c => Nat.two_pow_pos c.H) (fun _ _ hs => hs) exec_ghrInRange

/-- Settles O36: the width of a table entry bounds it, and the bound of `GHR` is an invariant. -/
theorem reachableStatesInRange : Obligations.ReachableStatesInRange := by
  intro s h
  refine ⟨fun i => ?_, fun j => ?_, fun k => ?_, ?_, fun k => ?_⟩
  · exact Nat.le_of_lt_succ (s.phtAt i).isLt
  · exact Nat.le_of_lt_succ (s.lphtAt j).isLt
  · exact Nat.le_of_lt_succ (s.metaAt k).isLt
  · exact Nat.le_sub_one_of_lt h.ghrInRange
  · exact Nat.le_of_lt_succ (s.lhtAt k).isLt

end Sys2Proof.Machine
end

section
/-! PROOFS. Bits 66:65 of an operation word choose its row and the operands are its fields (30_encoding.md R62 to R65). -/

namespace Sys2Proof

/-- Under the mask of R63 only the bits 66:65 of a word are left. -/
theorem OpWord.and_mask67_toNat (w : OpWord) :
    (w &&& 0x60000000000000000).toNat = w.toNat / 2 ^ 65 * 2 ^ 65 := by
  have hmask : (0x60000000000000000 : OpWord) = BitVec.allOnes 67 <<< 65 := by decide
  rw [hmask, ← BitVec.shiftLeft_ushiftRight, BitVec.toNat_shiftLeft, BitVec.toNat_ushiftRight,
    Nat.shiftRight_eq_div_pow, Nat.shiftLeft_eq]
  have := w.isLt
  omega

/-- A row with the mask of R63 selects the words whose bits 66:65 are those of its match. -/
theorem OpcodeRow.selects_mk (name : OpName) (m w : OpWord) :
    (OpcodeRow.mk name m 0x60000000000000000).selects w =
      decide (w.toNat / 2 ^ 65 * 2 ^ 65 = m.toNat) := by
  rw [Bool.eq_iff_iff, decide_eq_true_iff, OpcodeRow.selects, beq_iff_eq, ← BitVec.toNat_inj,
    OpWord.and_mask67_toNat]

/-- The row of a word is the one whose place in the table of R63 is the word's `opc`; `opc = 11` has none. -/
theorem find?_selects_opcodeRows (w : OpWord) :
    opcodeRows.find? (fun r => r.selects w) = opcodeRows[w.toNat / 2 ^ 65]? := by
  have hlt : w.toNat / 2 ^ 65 < 4 := by
    have := w.isLt
    omega
  simp only [opcodeRows, List.find?_cons, OpcodeRow.selects_mk]
  generalize w.toNat / 2 ^ 65 = opc at hlt ⊢
  interval_cases opc <;> rfl

section Rows

variable {w : OpWord}

theorem decodeOp_of_opc_zero (h : w.toNat / 2 ^ 65 = 0) :
    decodeOp w = .ok (.predict (OpWord.pcField w)) := by
  rw [decodeOp, find?_selects_opcodeRows, h]
  rfl

theorem decodeOp_of_opc_one (h : w.toNat / 2 ^ 65 = 1) :
    decodeOp w = .ok (.update (OpWord.pcField w) (OpWord.nextPcField w) (OpWord.takenField w)) := by
  rw [decodeOp, find?_selects_opcodeRows, h]
  rfl

theorem decodeOp_of_opc_two (h : w.toNat / 2 ^ 65 = 2) : decodeOp w = .ok .reset := by
  rw [decodeOp, find?_selects_opcodeRows, h]
  rfl

theorem decodeOp_of_opc_three (h : w.toNat / 2 ^ 65 = 3) : decodeOp w = .error .reservedOpcode := by
  rw [decodeOp, find?_selects_opcodeRows, h]
  rfl

end Rows

/-! ### The fields (30_encoding.md R62) -/

theorem OpWord.pcField_eq (w : OpWord) : OpWord.pcField w = BitVec.ofNat 32 (w.toNat % 2 ^ 32) := by
  apply BitVec.eq_of_toNat_eq
  rw [OpWord.pcField, BitVec.extractLsb'_toNat, BitVec.toNat_ofNat, Nat.shiftRight_zero, Nat.mod_mod]

theorem OpWord.nextPcField_eq (w : OpWord) :
    OpWord.nextPcField w = BitVec.ofNat 32 (w.toNat / 2 ^ 32 % 2 ^ 32) := by
  apply BitVec.eq_of_toNat_eq
  rw [OpWord.nextPcField, BitVec.extractLsb'_toNat, BitVec.toNat_ofNat, Nat.shiftRight_eq_div_pow,
    Nat.mod_mod]

theorem OpWord.takenField_eq (w : OpWord) :
    OpWord.takenField w = decide (w.toNat / 2 ^ 64 % 2 = 1) := by
  rw [OpWord.takenField, BitVec.getLsbD, Nat.testBit_eq_decide_div_mod_eq]

/-- A word that is an operation decodes to the row the VARIANT gives the operation (30_encoding.md R69). -/
theorem decode_of_decodeOp_ok {w : OpWord} {o : Op} (h : decodeOp w = .ok o) (v : Variant) :
    decode v w = .ok (o.toInstr v) := by
  rw [decode, h]

theorem decode_of_decodeOp_error {w : OpWord} {e : DecodeError} (h : decodeOp w = .error e)
    (v : Variant) : decode v w = .error e := by
  rw [decode, h]

/-- Settles O2: the mask leaves the bits 66:65, which number the rows, and each field is a quotient and remainder. -/
theorem decodeReadsOpcodeAndFields : Obligations.DecodeReadsOpcodeAndFields := by
  intro w
  simp only [← OpWord.pcField_eq, ← OpWord.nextPcField_eq, ← OpWord.takenField_eq]
  refine ⟨fun h => ?_, fun h => ?_, fun h => ?_, fun h => ?_⟩
  · have hd := decode_of_decodeOp_ok (decodeOp_of_opc_zero h)
    exact ⟨hd .gshare, hd .tournament⟩
  · have hd := decode_of_decodeOp_ok (decodeOp_of_opc_one h)
    exact ⟨hd .gshare, hd .tournament⟩
  · have hd := decode_of_decodeOp_ok (decodeOp_of_opc_two h)
    exact ⟨hd .gshare, hd .tournament⟩
  · have hd := decode_of_decodeOp_error (decodeOp_of_opc_three h)
    exact ⟨hd .gshare, hd .tournament⟩

end Sys2Proof
end

section
/-! PROOFS. The rising edge of the clock, by its three cases (30_encoding.md R61). -/

namespace Sys2Proof.Machine

theorem clockEdge_of_rst {p : Ports} (s : State) (h : p.rst = true) : clockEdge s p = s.clear := by
  rw [clockEdge, if_pos h]

theorem clockEdge_of_updValid {p : Ports} (s : State) (hr : p.rst = false) (hu : p.updValid = true) :
    clockEdge s p = update s p.updPc p.updNextPc p.updTaken := by
  rw [clockEdge, if_neg (by simp [hr]), if_pos hu]

theorem clockEdge_of_idle {p : Ports} (s : State) (hr : p.rst = false) (hu : p.updValid = false) :
    clockEdge s p = s := by
  rw [clockEdge, if_neg (by simp [hr]), if_neg (by simp [hu])]

/-- Settles O44: every operation completes with its `applyOp`, which is what the edge does in each of its cases. -/
theorem clockEdgeResetWinsElseUpdate : Obligations.ClockEdgeResetWinsElseUpdate := by
  intro s p
  refine ⟨exec_toInstr (.predict p.predPc) s, fun hr => ?_, fun hr hu => ?_, clockEdge_of_idle s⟩
  · rw [clockEdge_of_rst s hr]
    exact exec_toInstr .reset s
  · rw [clockEdge_of_updValid s hr hu]
    exact exec_toInstr (.update p.updPc p.updNextPc p.updTaken) s

end Sys2Proof.Machine
end

section
/-! PROOFS. The counters' thresholds as bits, and what a run of shifts leaves of a history
(40_indexing_and_primitives.md R86 to R91). -/

namespace Sys2Proof.Machine

/-- The threshold of R88 is the upper bit of the counter. -/
theorem dir2_eq_getLsbD (c : Counter2) : dir2 c = c.getLsbD 1 := by
  revert c
  decide

/-- The threshold of R89 is the upper bit of the meta counter. -/
theorem useGshare_eq_getLsbD (m : Counter3) : useGshare m = m.getLsbD 2 := by
  revert m
  decide

/-- Settles O12: each operation in exact arithmetic, each threshold as an inequality and as a bit. -/
theorem countersSaturateAtTheirThresholds : Obligations.CountersSaturateAtTheirThresholds :=
  ⟨sat2_toNat, fun m => ⟨metaUp_toNat m, metaDown_toNat m⟩,
    fun c => ⟨dir2_iff c, dir2_eq_getLsbD c⟩, fun m => ⟨useGshare_iff m, useGshare_eq_getLsbD m⟩⟩

/-! ### A history of `w` bits that the outcome `k` enters again and again -/

/-- What `shiftH` and `shift8` have in common: the outcome `k` enters a history of `w` bits at bit 0. -/
def shiftIn (w : Nat) (k : Bool) (x : Nat) : Nat := (2 * x + k.toNat) % 2 ^ w

theorem toNat_iterate_shiftH (c : Config) (k : Bool) (n : Nat) (g : Word) :
    ((fun x => shiftH c x k)^[n] g).toNat = (shiftIn c.H k)^[n] g.toNat := by
  have hstep : Function.Semiconj BitVec.toNat (fun x => shiftH c x k) (shiftIn c.H k) :=
    fun x => shiftH_toNat c x k
  exact (hstep.iterate_right n).eq g

theorem toNat_iterate_shift8 (k : Bool) (n : Nat) (l : LocalHistory) :
    ((fun x => shift8 x k)^[n] l).toNat = (shiftIn 8 k)^[n] l.toNat := by
  have hstep : Function.Semiconj BitVec.toNat (fun x => shift8 x k) (shiftIn 8 k) :=
    fun x => shift8_toNat x k
  exact (hstep.iterate_right n).eq l

section Run

variable {w n : Nat} (k : Bool) (x : Nat)

theorem shiftIn_iterate_lt (h : 0 < n ∨ x < 2 ^ w) : (shiftIn w k)^[n] x < 2 ^ w := by
  cases n with
  | zero => exact h.resolve_left (Nat.lt_irrefl 0)
  | succ n =>
    rw [Function.iterate_succ_apply']
    exact Nat.mod_lt _ (Nat.two_pow_pos w)

/-- A shift takes `x` to `2x + k`, so it doubles `x + k` modulo the size of the history. -/
theorem shiftIn_iterate_add_modEq :
    (shiftIn w k)^[n] x + k.toNat ≡ 2 ^ n * (x + k.toNat) [MOD 2 ^ w] := by
  induction n with
  | zero => simp [Nat.ModEq.refl]
  | succ n ih =>
    rw [Function.iterate_succ_apply']
    calc shiftIn w k ((shiftIn w k)^[n] x) + k.toNat
        ≡ 2 * (shiftIn w k)^[n] x + k.toNat + k.toNat [MOD 2 ^ w] := (Nat.mod_modEq _ _).add_right _
      _ = 2 * ((shiftIn w k)^[n] x + k.toNat) := by ring
      _ ≡ 2 * (2 ^ n * (x + k.toNat)) [MOD 2 ^ w] := ih.mul_left 2
      _ = 2 ^ (n + 1) * (x + k.toNat) := by ring

/-- After as many shifts as the history has bits nothing is left of its start. -/
theorem shiftIn_iterate_add_modEq_zero (h : w ≤ n) :
    (shiftIn w k)^[n] x + k.toNat ≡ 0 [MOD 2 ^ w] :=
  (shiftIn_iterate_add_modEq k x).trans
    (Nat.modEq_zero_iff_dvd.2 (Dvd.dvd.mul_right (pow_dvd_pow 2 h) _))

end Run

theorem shiftIn_true_iterate_of_le {w n : Nat} (hw : 0 < w) (h : w ≤ n) (x : Nat) :
    (shiftIn w true)^[n] x = 2 ^ w - 1 := by
  have hlt := shiftIn_iterate_lt true x (w := w) (.inl (hw.trans_le h))
  have hdvd := Nat.modEq_zero_iff_dvd.1 (shiftIn_iterate_add_modEq_zero true x h)
  exact Nat.eq_sub_of_add_eq (Nat.le_antisymm hlt (Nat.le_of_dvd (Nat.succ_pos _) hdvd))

theorem shiftIn_false_iterate_of_le {w n : Nat} (hw : 0 < w) (h : w ≤ n) (x : Nat) :
    (shiftIn w false)^[n] x = 0 := by
  have hlt := shiftIn_iterate_lt false x (w := w) (.inl (hw.trans_le h))
  exact (shiftIn_iterate_add_modEq_zero false x h).eq_of_lt_of_lt hlt (Nat.two_pow_pos w)

/-- Taken outcomes fill an empty history from bit 0 up. -/
theorem shiftIn_true_iterate_zero {w n : Nat} (h : n ≤ w) : (shiftIn w true)^[n] 0 = 2 ^ n - 1 := by
  have hlt := shiftIn_iterate_lt true 0 (n := n) (.inr (Nat.two_pow_pos w))
  have hle : 2 ^ n ≤ 2 ^ w := Nat.pow_le_pow_right (by decide) h
  have hpos := Nat.two_pow_pos n
  have hmod : (shiftIn w true)^[n] 0 + 1 ≡ 2 ^ n - 1 + 1 [MOD 2 ^ w] := by
    rw [Nat.sub_add_cancel hpos]
    simpa using shiftIn_iterate_add_modEq (w := w) (n := n) true 0
  exact (hmod.add_right_cancel' 1).eq_of_lt_of_lt hlt (by omega)

/-- A history of one bit is its latest outcome. -/
theorem shiftH_toNat_of_H_one {c : Config} (h : c.H = 1) (g : Word) (k : Bool) :
    (shiftH c g k).toNat = k.toNat := by
  rw [shiftH_toNat, h, pow_one, Nat.mul_add_mod, Nat.mod_eq_of_lt k.toNat_lt]

/-- Settles O13: a run of one outcome is a run of `shiftIn`, which doubles history plus outcome modulo `2^H`. -/
theorem historyShiftersDropOldestOutcome : Obligations.HistoryShiftersDropOldestOutcome := by
  refine ⟨fun c g k => ⟨shiftH_toNat c g k, fun h => shiftH_toNat_of_H_one h g k⟩,
    fun c g n h => ⟨?_, ?_⟩, fun c n h => ?_, shift8_toNat, fun l n h => ?_⟩
  · rw [toNat_iterate_shiftH, shiftIn_true_iterate_of_le c.H_pos h]
  · rw [toNat_iterate_shiftH, shiftIn_false_iterate_of_le c.H_pos h]
  · exact (toNat_iterate_shiftH c true n 0).trans (shiftIn_true_iterate_zero h)
  · apply BitVec.eq_of_toNat_eq
    rw [toNat_iterate_shift8, shiftIn_true_iterate_of_le (by decide) h]
    rfl

end Sys2Proof.Machine
end

section
/-! PROOFS. The words of a row with given operands (30_encoding.md R62 to R64). -/

namespace Sys2Proof

theorem ofNat_toNat_word (x : Word) : BitVec.ofNat 32 x.toNat = x := by
  rw [BitVec.ofNat_toNat, BitVec.setWidth_eq]

/-- A word with `opc = 00` is the PREDICT of its field `pc`; no other field is looked at (30_encoding.md R65). -/
theorem decode_predict_of_fields {w : OpWord} {pc : Word} (hopc : w.toNat / 2 ^ 65 = 0)
    (hpc : w.toNat % 2 ^ 32 = pc.toNat) (v : Variant) :
    decode v w = .ok ((Op.predict pc).toInstr v) := by
  have hfield : OpWord.pcField w = pc := by
    rw [OpWord.pcField_eq, hpc, ofNat_toNat_word]
  rw [decode_of_decodeOp_ok (decodeOp_of_opc_zero hopc), hfield]

/-- A word with `opc = 01` is the UPDATE of its three fields. -/
theorem decode_update_of_fields {w : OpWord} {pc nextPc : Word} {taken : Bool}
    (hopc : w.toNat / 2 ^ 65 = 1) (hpc : w.toNat % 2 ^ 32 = pc.toNat)
    (hnext : w.toNat / 2 ^ 32 % 2 ^ 32 = nextPc.toNat) (htaken : w.toNat / 2 ^ 64 % 2 = taken.toNat)
    (v : Variant) : decode v w = .ok ((Op.update pc nextPc taken).toInstr v) := by
  have hpcField : OpWord.pcField w = pc := by
    rw [OpWord.pcField_eq, hpc, ofNat_toNat_word]
  have hnextField : OpWord.nextPcField w = nextPc := by
    rw [OpWord.nextPcField_eq, hnext, ofNat_toNat_word]
  have htakenField : OpWord.takenField w = taken := by
    rw [OpWord.takenField_eq, htaken]
    cases taken <;> rfl
  rw [decode_of_decodeOp_ok (decodeOp_of_opc_one hopc), hpcField, hnextField, htakenField]

end Sys2Proof
end

section
/-! PROOFS. What PREDICT and UPDATE do in the GSHARE variant, in exact arithmetic (41_gshare.md R100, R101). -/

namespace Sys2Proof.Machine

theorem btbHit_iff (e : BtbEntry) (tag : Word) :
    btbHit e tag = true ↔ e.valid = true ∧ e.tag.toNat = tag.toNat := by
  rw [btbHit, Bool.and_eq_true, beq_iff_eq, BitVec.toNat_inj]

/-- The result of a PREDICT of either variant: the target when taken and hit, the wrapped sum otherwise
(40_indexing_and_primitives.md R94, R95). -/
theorem selectNext_eq (pc : Word) (dir : Bool) (tag : Word) (e : BtbEntry) :
    selectNext pc dir tag e =
      if dir = true ∧ e.valid = true ∧ e.tag.toNat = tag.toNat then e.targetPc
      else BitVec.ofNat 32 (pc.toNat + 4) := by
  have hsum : pc + 4 = BitVec.ofNat 32 (pc.toNat + 4) := BitVec.eq_of_toNat_eq (by simp)
  simp only [selectNext, Bool.and_eq_true, btbHit_iff, hsum]

theorem predictG_eq (s : State) (pc : Word) :
    predictG s pc =
      if 2 ≤ (s.phtAt ((pc.toNat / 4 ^^^ s.ghr.toNat) % 2 ^ s.cfg.H)).toNat ∧
          (s.btbAt (pc.toNat / 4 % 2 ^ s.cfg.B)).valid = true ∧
          (s.btbAt (pc.toNat / 4 % 2 ^ s.cfg.B)).tag.toNat = pc.toNat / 4 / 2 ^ s.cfg.B
      then (s.btbAt (pc.toNat / 4 % 2 ^ s.cfg.B)).targetPc
      else BitVec.ofNat 32 (pc.toNat + 4) := by
  simp only [predictG, selectNext_eq, directionG, dir2_iff, phtIndex_eq, btbIndex_eq, tagG_toNat]

theorem tagG_eq (c : Config) (pc : Word) :
    tagG c pc = BitVec.ofNat 32 (pc.toNat / 4 / 2 ^ c.B) := by
  rw [← tagG_toNat, ofNat_toNat_word]

theorem updateG_phtAt_toNat (s : State) (pc nextPc : Word) (taken : Bool) (j : Nat) :
    ((updateG s pc nextPc taken).phtAt j).toNat =
      if j = phtIndex s.cfg s.ghr pc then
        if taken then min ((s.phtAt (phtIndex s.cfg s.ghr pc)).toNat + 1) 3
        else (s.phtAt (phtIndex s.cfg s.ghr pc)).toNat - 1
      else (s.phtAt j).toNat := by
  rw [updateG_phtAt]
  split
  · next hj => rw [sat2_toNat, hj]
  · rfl

section Rows

variable {s : State} (h : s.cfg.variant = .gshare)
include h

theorem predict_of_gshare (pc : Word) : predict s pc = predictG s pc := by
  rw [predict, h]

theorem update_of_gshare (pc nextPc : Word) (taken : Bool) :
    update s pc nextPc taken = updateG s pc nextPc taken := by
  rw [update, h]

theorem exec_predictG_of_gshare (pc : Word) :
    exec (.predictG pc) s = .next (s.emit (predictG s pc)) := if_pos h

theorem exec_updateG_of_gshare (pc nextPc : Word) (taken : Bool) :
    exec (.updateG pc nextPc taken) s = .next (updateG s pc nextPc taken) := if_pos h

end Rows

/-- Settles O16: row and port give the one value `predictG`, which is the statement's case distinction. -/
theorem predictGTargetOnTakenHitElseSequential :
    Obligations.PredictGTargetOnTakenHitElseSequential := by
  intro s pc hv w e c nextPc
  have hresult : predictG s pc = nextPc := predictG_eq s pc
  refine ⟨?_, fun p hp => ?_, fun x hopc hpc => ?_⟩
  · rw [exec_predictG_of_gshare hv, hresult, State.emit]
  · rw [predNextPc, hp, predict_of_gshare hv, hresult]
  · rw [decode_predict_of_fields hopc hpc, hv, Op.toInstr]

/-- Settles O17: the row and the clock edge both give `updateG`, whose counters, history and entries are read off one by one;
it leaves the other fields alone. -/
theorem updateGTrainsOneCounterHistoryAndBtb : Obligations.UpdateGTrainsOneCounterHistoryAndBtb := by
  intro s pc nextPc taken hv w bi pi
  have hbi : btbIndex s.cfg pc = bi := btbIndex_eq s.cfg pc
  have hpi : phtIndex s.cfg s.ghr pc = pi := phtIndex_eq s.cfg s.ghr pc
  refine ⟨updateG s pc nextPc taken, exec_updateG_of_gshare hv pc nextPc taken, fun j => ?counter,
    ?history, fun j => ?entry, updateG_lht .., updateG_lpht .., updateG_metaTab .., updateG_cfg ..,
    updateG_pending .., updateG_results .., fun p hr hu hpc hnext htaken => ?port,
    fun x hopc hpc hnext htaken => ?words⟩
  case counter => rw [updateG_phtAt_toNat, hpi]
  case history => rw [updateG_ghr, shiftH_toNat]
  case entry => rw [updateG_btbAt, hbi, tagG_eq]
  case port => rw [clockEdge_of_updValid s hr hu, hpc, hnext, htaken, update_of_gshare hv]
  case words => rw [decode_update_of_fields hopc hpc hnext htaken, hv, Op.toInstr]

end Sys2Proof.Machine
end

section
/-! PROOFS. No TOURNAMENT operation but RESET writes `GHR`, so its reset value 0 is an invariant (42_tournament.md R113). -/

namespace Sys2Proof.Machine

/-- The frame of the TOURNAMENT rows on `GHR`; a GSHARE row does not run on the instance. -/
theorem exec_ghr_of_tournament {i : Instr} {s t : State} (hv : s.cfg.variant = .tournament)
    (h : exec i s = .next t) (hi : i ≠ .reset) : t.ghr = s.ghr := by
  rcases exec_next h with ⟨pc, -, hg, -⟩ | ⟨pc, n, k, -, hg, -⟩ | ⟨pc, -, -, rfl⟩ |
    ⟨pc, n, k, -, -, rfl⟩ | ⟨hr, -⟩
  · cases hv.symm.trans hg
  · cases hv.symm.trans hg
  · rfl
  · exact updateT_ghr s pc n k
  · exact absurd hr hi

/-- In a TOURNAMENT instance `GHR` is 0 (10_state.md R33). -/
def State.GhrZeroInTournament (s : State) : Prop := s.cfg.variant = .tournament → s.ghr = 0

theorem exec_ghrZeroInTournament (i : Instr) (s t : State) (h : exec i s = .next t)
    (hs : s.GhrZeroInTournament) : t.GhrZeroInTournament := by
  intro hv
  rw [exec_cfg h] at hv
  by_cases hr : i = .reset
  · subst hr
    cases h
    rfl
  · rw [exec_ghr_of_tournament hv h hr, hs hv]

theorem Reachable.ghrZeroInTournament {s : State} (h : Reachable s) : s.GhrZeroInTournament :=
  h.of_exec (fun _ _ => rfl) (fun _ _ hs => hs) exec_ghrZeroInTournament

/-- With an empty history the PHT index is that of the PC alone (10_state.md R33). -/
theorem phtIndex_zero (c : Config) (pc : Word) : phtIndex c 0 pc = pc.toNat / 4 % 2 ^ c.H := by
  rw [phtIndex_eq, BitVec.ofNat_eq_ofNat, BitVec.toNat_zero, Nat.xor_zero]

/-- Settles O26: the frame of every row but RESET on `GHR`, and the invariant that follows from it. -/
theorem tournamentNeverWritesHistory : Obligations.TournamentNeverWritesHistory := by
  refine ⟨fun s t i hv h hi => exec_ghr_of_tournament hv h hi, fun s hs hv => ?_⟩
  have hghr : s.ghr = 0 := hs.ghrZeroInTournament hv
  refine ⟨hghr, fun pc => ?_⟩
  rw [hghr, phtIndex_zero]

end Sys2Proof.Machine
end

section
/-! PROOFS. What PREDICT and UPDATE do in the TOURNAMENT variant, in exact arithmetic (42_tournament.md R110, R111). -/

namespace Sys2Proof.Machine

section Rows

variable {s : State} (h : s.cfg.variant = .tournament)
include h

theorem predict_of_tournament (pc : Word) : predict s pc = predictT s pc := by
  rw [predict, h]

theorem update_of_tournament (pc nextPc : Word) (taken : Bool) :
    update s pc nextPc taken = updateT s pc nextPc taken := by
  rw [update, h]

theorem exec_predictT_of_tournament (pc : Word) :
    exec (.predictT pc) s = .next (s.emit (predictT s pc)) := if_pos h

theorem exec_updateT_of_tournament (pc nextPc : Word) (taken : Bool) :
    exec (.updateT pc nextPc taken) s = .next (updateT s pc nextPc taken) := if_pos h

end Rows

theorem tagT_eq (c : Config) (pc : Word) : tagT c pc = BitVec.ofNat 32 (pc.toNat / 2 ^ c.B) := by
  rw [← tagT_toNat, ofNat_toNat_word]

/-! ### PREDICT.T (42_tournament.md R110) -/

/-- The counter PREDICT.T follows: the global one when META is at least 4, the local one otherwise. -/
def selectedCounter (s : State) (pc : Word) : Counter2 :=
  if 4 ≤ (s.metaAt (btbIndex s.cfg pc)).toNat then s.phtAt (phtIndex s.cfg s.ghr pc)
  else s.lphtAt (lphtIndexOf s pc)

theorem directionT_eq (s : State) (pc : Word) : directionT s pc = dir2 (selectedCounter s pc) := by
  rw [selectedCounter, apply_ite dir2]
  simp only [directionT, useGshare_iff, gsharePred, localPred, lphtIndexOf]

theorem predictT_eq (s : State) (pc : Word) :
    predictT s pc =
      if 2 ≤ (selectedCounter s pc).toNat ∧ (s.btbAt (btbIndex s.cfg pc)).valid = true ∧
          (s.btbAt (btbIndex s.cfg pc)).tag.toNat = pc.toNat / 2 ^ s.cfg.B
      then (s.btbAt (btbIndex s.cfg pc)).targetPc
      else BitVec.ofNat 32 (pc.toNat + 4) := by
  simp only [predictT, selectNext_eq, directionT_eq, dir2_iff, tagT_toNat]

/-- Settles O22: row and port give the one value `predictT`, which follows the counter META selects. -/
theorem predictTFollowsSelectedSubPredictor : Obligations.PredictTFollowsSelectedSubPredictor := by
  intro s pc hv w bi e g l c nextPc
  have hc : selectedCounter s pc = c := by
    rw [selectedCounter, btbIndex_eq, phtIndex_eq, lphtIndexOf_eq]
  have hresult : predictT s pc = nextPc := by
    rw [predictT_eq, hc, btbIndex_eq]
  refine ⟨?_, fun p hp => ?_, fun x hopc hpc => ?_⟩
  · rw [exec_predictT_of_tournament hv, hresult, State.emit]
  · rw [predNextPc, hp, predict_of_tournament hv, hresult]
  · rw [decode_predict_of_fields hopc hpc, hv, Op.toInstr]

/-! ### UPDATE.T (42_tournament.md R111) -/

/-- Step (a) on either table of counters, read at `j`: the entry `i` is saturated by one, every other one is kept. -/
theorem toNat_ite_sat2 (read : Nat → Counter2) (i j : Nat) (taken : Bool) :
    (if j = i then sat2 (read j) taken else read j).toNat =
      if j = i then (if taken then min ((read i).toNat + 1) 3 else (read i).toNat - 1)
      else (read j).toNat := by
  split
  · next hj => rw [sat2_toNat, hj]
  · rfl

/-- Step (d): META moves toward the one sub-predictor that was correct, and only when there is exactly one. -/
theorem metaNext_toNat (m : Counter3) (gshareCorrect localCorrect : Bool) :
    (metaNext m gshareCorrect localCorrect).toNat =
      if gshareCorrect = true ∧ localCorrect = false then min (m.toNat + 1) 7
      else if localCorrect = true ∧ gshareCorrect = false then m.toNat - 1
      else m.toNat := by
  cases gshareCorrect <;> cases localCorrect
  · rfl
  · exact metaDown_toNat m
  · exact metaUp_toNat m
  · rfl

section Judged

variable (s : State) (pc nextPc : Word) (taken : Bool)

/-- Step (c) judges the counters step (a) wrote (42_tournament.md R115). -/
theorem updateT_gshareCorrect :
    (decide (2 ≤ ((updateT s pc nextPc taken).phtAt (phtIndex s.cfg s.ghr pc)).toNat) == taken) =
      postCorrect (s.phtAt (phtIndex s.cfg s.ghr pc)) taken := by
  rw [updateT_phtAt, if_pos rfl, postCorrect, dir2]

theorem updateT_localCorrect :
    (decide (2 ≤ ((updateT s pc nextPc taken).lphtAt (lphtIndexOf s pc)).toNat) == taken) =
      postCorrect (s.lphtAt (lphtIndexOf s pc)) taken := by
  rw [updateT_lphtAt, if_pos rfl, postCorrect, dir2]

/-- META at the index of the PC after the UPDATE. -/
theorem updateT_metaAt_btbIndex :
    (updateT s pc nextPc taken).metaAt (btbIndex s.cfg pc) =
      metaNext (s.metaAt (btbIndex s.cfg pc)) (postCorrect (s.phtAt (phtIndex s.cfg s.ghr pc)) taken)
        (postCorrect (s.lphtAt (lphtIndexOf s pc)) taken) := by
  rw [updateT_metaAt, if_pos rfl]

end Judged

/-- Settles O23: the row and the clock edge both give `updateT`, whose counters, histories and entries are read off one by
one; it leaves `GHR` and the other fields alone. -/
theorem updateTTrainsAndJudgesUpdatedCounters : Obligations.UpdateTTrainsAndJudgesUpdatedCounters := by
  intro s pc nextPc taken hv w bi pi li
  have hbi : btbIndex s.cfg pc = bi := btbIndex_eq s.cfg pc
  have hpi : phtIndex s.cfg s.ghr pc = pi := phtIndex_eq s.cfg s.ghr pc
  have hli : lphtIndexOf s pc = li := lphtIndexOf_eq s pc
  refine ⟨updateT s pc nextPc taken, exec_updateT_of_tournament hv pc nextPc taken, fun j => ?global,
    fun j => ?localCounter, fun j => ?history, fun j => ?choice, fun j => ?entry, updateT_ghr ..,
    updateT_cfg .., updateT_pending .., updateT_results .., fun p hr hu hpc hnext htaken => ?port,
    fun x hopc hpc hnext htaken => ?words⟩
  case global => rw [updateT_phtAt, hpi, toNat_ite_sat2 s.phtAt]
  case localCounter => rw [updateT_lphtAt, hli, toNat_ite_sat2 s.lphtAt]
  case history =>
    rw [updateT_lhtAt, lhtIndex_eq, hbi]
    split
    · next hj => rw [shift8_toNat, hj]
    · rfl
  case choice =>
    have hg := updateT_gshareCorrect s pc nextPc taken
    have hl := updateT_localCorrect s pc nextPc taken
    rw [hpi] at hg
    rw [hli] at hl
    simp only [hg, hl]
    by_cases hj : j = bi
    · rw [hj, ← hbi, updateT_metaAt_btbIndex, metaNext_toNat, hpi, hli]
      simp only [true_and]
    · rw [updateT_metaAt, hbi, if_neg hj]
      simp only [hj, false_and, if_false]
  case entry => rw [updateT_btbAt, hbi, tagT_eq]
  case port => rw [clockEdge_of_updValid s hr hu, hpc, hnext, htaken, update_of_tournament hv]
  case words => rw [decode_update_of_fields hopc hpc hnext htaken, hv, Op.toInstr]

/-! ### The update-after-mutation anomaly (42_tournament.md R115) -/

/-- A wrong counter is credited exactly when this UPDATE takes it across its threshold. -/
theorem postCorrect_and_dir2_ne_iff (c : Counter2) (taken : Bool) :
    (postCorrect c taken = true ∧ dir2 c ≠ taken) ↔
      ((c = 1 ∧ taken = true) ∨ (c = 2 ∧ taken = false)) := by
  revert c taken
  decide

/-- Two wrong counters, of which `c` crosses its threshold on this UPDATE and `d` is too far from it. -/
theorem judged_of_only_first_crosses {c d : Counter2} {taken : Bool}
    (h : (taken = true ∧ c.toNat = 1 ∧ d.toNat = 0) ∨ (taken = false ∧ c.toNat = 2 ∧ d.toNat = 3)) :
    (postCorrect c taken = true ∧ dir2 c ≠ taken) ∧ (postCorrect d taken = false ∧ dir2 d ≠ taken) := by
  rcases h with ⟨rfl, hc, hd⟩ | ⟨rfl, hc, hd⟩
  · have hd0 : d = 0 := BitVec.eq_of_toNat_eq hd
    exact ⟨(postCorrect_and_dir2_ne_iff c true).2 (.inl ⟨BitVec.eq_of_toNat_eq hc, rfl⟩),
      by rw [hd0]; decide⟩
  · have hd3 : d = 3 := BitVec.eq_of_toNat_eq hd
    exact ⟨(postCorrect_and_dir2_ne_iff c false).2 (.inr ⟨BitVec.eq_of_toNat_eq hc, rfl⟩),
      by rw [hd3]; decide⟩

/-- Settles O25: only the counter that crosses is judged correct, so META moves toward it. -/
theorem counterCrossingThresholdIsCredited : Obligations.CounterCrossingThresholdIsCredited := by
  refine ⟨postCorrect_and_dir2_ne_iff, ?_⟩
  intro s pc nextPc hv bi g l taken
  have hmeta := updateT_metaAt_btbIndex s pc nextPc taken
  rw [btbIndex_eq, phtIndex_eq, lphtIndexOf_eq] at hmeta
  refine ⟨updateT s pc nextPc taken, exec_updateT_of_tournament hv pc nextPc taken,
    fun h => ?globalCrosses, fun h => ?localCrosses⟩
  case globalCrosses =>
    obtain ⟨⟨hgc, hg⟩, hlc, hl⟩ := judged_of_only_first_crosses h
    refine ⟨⟨hg, hl⟩, ?_⟩
    rw [hmeta, hgc, hlc]
    exact metaUp_toNat _
  case localCrosses =>
    obtain ⟨⟨hlc, hl⟩, hgc, hg⟩ :=
      judged_of_only_first_crosses (h.imp (And.imp_right And.symm) (And.imp_right And.symm))
    refine ⟨⟨hg, hl⟩, ?_⟩
    rw [hmeta, hgc, hlc]
    exact metaDown_toNat _

end Sys2Proof.Machine
end

section
/-! PROOFS. Every step but one on the reserved word gives a next state (60_exceptions.md R130; 30_encoding.md R65). -/

namespace Sys2Proof.Machine

/-- How many results an operation gives the host: PREDICT returns a value, UPDATE and RESET return none
(30_encoding.md R60). -/
def resultCount (o : Op) : Nat :=
  match o with
  | .predict _ => 1
  | .update _ _ _ => 0
  | .reset => 0

theorem applyOp_results_length (s : State) (o : Op) :
    (applyOp s o).results.length = s.results.length + resultCount o := by
  cases o <;> simp [applyOp, resultCount]

/-- Every word but the reserved one is an operation, with one result when its `opc` is 00 and none otherwise. -/
theorem decodeOp_of_opc_ne_three {w : OpWord} (h : w.toNat / 2 ^ 65 ≠ 3) :
    ∃ o, decodeOp w = .ok o ∧ resultCount o = if w.toNat / 2 ^ 65 = 0 then 1 else 0 := by
  have hopc : w.toNat / 2 ^ 65 = 0 ∨ w.toNat / 2 ^ 65 = 1 ∨ w.toNat / 2 ^ 65 = 2 := by
    have := w.isLt
    omega
  rcases hopc with h0 | h1 | h2
  · exact ⟨_, decodeOp_of_opc_zero h0, by rw [if_pos h0]; rfl⟩
  · exact ⟨_, decodeOp_of_opc_one h1, by rw [h1]; rfl⟩
  · exact ⟨_, decodeOp_of_opc_two h2, by rw [h2]; rfl⟩

theorem step_of_pending_nil {s : State} (hp : s.pending = []) : step s = .next s := by
  simp only [step, hp]

theorem step_of_reservedNext {s : State} (h : s.reservedNext) : step s = .refused .reservedOpcode := by
  obtain ⟨w, rest, hp, hopc⟩ := h
  simp only [step, hp, decode, decodeOp_of_opc_three hopc]

/-- A step on any other word runs an operation, with the results that operation gives. -/
theorem step_of_opc_ne_three {s : State} {w : OpWord} {rest : List OpWord}
    (hp : s.pending = w :: rest) (hopc : w.toNat / 2 ^ 65 ≠ 3) :
    ∃ t, step s = .next t ∧
      t.results.length = s.results.length + (if w.toNat / 2 ^ 65 = 0 then 1 else 0) := by
  obtain ⟨o, hd, hcount⟩ := decodeOp_of_opc_ne_three hopc
  exact ⟨_, step_of_decodeOp hp hd, by rw [applyOp_results_length, hcount]⟩

/-- The reserved word is the only stop a step has. -/
theorem step_next_of_not_reservedNext {s : State} (h : ¬ s.reservedNext) : ∃ t, step s = .next t := by
  cases hp : s.pending with
  | nil => exact ⟨s, step_of_pending_nil hp⟩
  | cons w rest =>
    obtain ⟨t, ht, -⟩ := step_of_opc_ne_three hp fun hopc => h ⟨w, rest, hp, hopc⟩
    exact ⟨t, ht⟩

/-- Settles O7: there is no cause a fault could have, and a step is refused exactly on the reserved word. -/
theorem stepNeverFaults : Obligations.StepNeverFaults := by
  refine fun s => ⟨nofun, ⟨fun h => ⟨_, step_of_reservedNext h⟩, ?_⟩,
    fun w rest => step_of_opc_ne_three⟩
  rintro ⟨r, hr⟩
  by_contra h
  obtain ⟨t, ht⟩ := step_next_of_not_reservedNext h
  rw [hr] at ht
  cases ht

end Sys2Proof.Machine
end

section
/-! PROOFS. The checks of construction, one after the other (60_exceptions.md R131). -/

namespace Sys2Proof.Machine

theorem btbSize_toNat_ne_zero {p : Params} (hz : p.btbSize ≠ 0) : p.btbSize.toNat ≠ 0 :=
  fun h => hz (BitVec.eq_of_toNat_eq h)

/-- Check 1 refuses. -/
theorem construct_of_btbSize_zero {p : Params} (hz : p.btbSize = 0) :
    construct p = .refused (.configError .btbSizeZero) := by
  rw [construct, dif_pos (by rw [hz]; rfl)]

section BtbSizeNonzero

variable {p : Params} (hz : p.btbSize ≠ 0)
include hz

/-- Check 1 passes, check 2 refuses. -/
theorem construct_of_btbSize_not_pow_two (hp : p.btbSize &&& (p.btbSize - 1) ≠ 0) :
    construct p = .refused (.configError .btbSizeNotPowerOfTwo) := by
  rw [construct, dif_neg (btbSize_toNat_ne_zero hz), if_pos hp]

variable (hp : p.btbSize &&& (p.btbSize - 1) = 0)
include hp

/-- Checks 1 and 2 pass, check 3 refuses. -/
theorem construct_of_bhrSize_zero (h0 : p.bhrSize = 0) :
    construct p = .refused (.configError .historyWidthZero) := by
  rw [construct, dif_neg (btbSize_toNat_ne_zero hz), if_neg (not_not.2 hp),
    dif_pos (by rw [h0]; rfl)]

/-- Checks 1 to 3 pass, check 4 refuses. -/
theorem construct_of_bhrSize_gt (h32 : 32 < p.bhrSize.toNat) :
    construct p = .refused (.configError .historyWidthTooLarge) := by
  rw [construct, dif_neg (btbSize_toNat_ne_zero hz), if_neg (not_not.2 hp), dif_neg (by omega),
    dif_pos h32]

/-- Checks 1 to 4 pass, check 5 refuses. -/
theorem construct_of_metaReset_gt (h1 : 1 ≤ p.bhrSize.toNat) (h32 : p.bhrSize.toNat ≤ 32)
    (hv : p.variant = .tournament) (h7 : 7 < p.metaReset) :
    construct p = .refused (.configError .metaResetOutOfRange) := by
  rw [construct, dif_neg (btbSize_toNat_ne_zero hz), if_neg (not_not.2 hp), dif_neg (by omega),
    dif_neg (by omega), if_pos ⟨hv, h7⟩]

end BtbSizeNonzero

/-- Settles O32: the refusal of each check, where the checks before it pass. -/
theorem constructionRefusesInOrder : Obligations.ConstructionRefusesInOrder := fun _ =>
  ⟨construct_of_btbSize_zero, construct_of_btbSize_not_pow_two, construct_of_bhrSize_zero,
    construct_of_bhrSize_gt, construct_of_metaReset_gt⟩

end Sys2Proof.Machine
end

section
/-! PROOFS. Encoding and decoding undo each other up to the ignored fields (30_encoding.md R63, R65, R69). -/

namespace Sys2Proof

open Sys2Proof.Laws.FieldsPlaced in
/-- The opcode stands in the bits 66:65 of a word (30_encoding.md R62). -/
theorem assemble_opc (opc : BitVec 2) (k : Bool) (n pc : Word) :
    (OpWord.assemble opc k n pc).toNat / 2 ^ 65 = opc.toNat := by
  have := k.toNat_le
  have := n.isLt
  have := pc.isLt
  rw [assemble_toNat]
  omega

open Sys2Proof.Laws.FieldsPlaced in
/-- The canonical word of an operation is read back as the operation. -/
theorem decodeOp_encodeOp (o : Op) : decodeOp (encodeOp o) = .ok o := by
  cases o with
  | predict pc => rw [encodeOp, decodeOp_of_opc_zero (assemble_opc ..), pcField_assemble]
  | update pc n k =>
    rw [encodeOp, decodeOp_of_opc_one (assemble_opc ..), pcField_assemble, nextPcField_assemble,
      takenField_assemble]
  | reset => rw [encodeOp, decodeOp_of_opc_two (assemble_opc ..)]

/-- The VARIANT supplies the suffix that the encoding leaves out (30_encoding.md R69). -/
theorem Instr.toInstr_toOp {v : Variant} {i : Instr} (h : i.wf v = true) : i.toOp.toInstr v = i := by
  cases i <;> cases v <;> simp [Instr.wf] at h <;> rfl

theorem Op.toOp_toInstr (v : Variant) (o : Op) : (o.toInstr v).toOp = o := by
  cases v <;> cases o <;> rfl

/-- The operation of a row is RESET only for RESET. -/
theorem Instr.toOp_ne_reset {i : Instr} (h : i ≠ .reset) : i.toOp ≠ .reset := by
  cases i with
  | reset => exact absurd rfl h
  | predictG | updateG | predictT | updateT => exact nofun

/-- Settles O3: decoding reads the operation back, and the VARIANT of a well-formed row gives the operation its row. -/
theorem decodeEncodeAgree : Obligations.DecodeEncodeAgree := by
  intro v i h
  rw [encode, decode_of_decodeOp_ok (decodeOp_encodeOp _), Instr.toInstr_toOp h]

/-! ### Encoding what a word decodes to -/

/-- A word that decodes to a row is an operation, whose canonical word is that of the row. -/
theorem encode_of_decode {v : Variant} {w : OpWord} {i : Instr} {o : Op} (h : decode v w = .ok i)
    (ho : decodeOp w = .ok o) : encode i = encodeOp o := by
  rw [decode_of_decodeOp_ok ho] at h
  cases h
  rw [encode, Op.toOp_toInstr]

theorem encodeOp_predict_toNat (pc : Word) : (encodeOp (.predict pc)).toNat = pc.toNat := by
  rw [encodeOp, Laws.FieldsPlaced.assemble_toNat]
  simp

theorem encodeOp_reset_toNat : (encodeOp .reset).toNat = 2 * 2 ^ 65 := by decide

/-- An UPDATE ignores no field: put together again, its three operands and its opcode are the word. -/
theorem encodeOp_update_fields {w : OpWord} (h : w.toNat / 2 ^ 65 = 1) :
    encodeOp (.update (OpWord.pcField w) (OpWord.nextPcField w) (OpWord.takenField w)) = w := by
  apply BitVec.eq_of_toNat_eq
  rw [encodeOp, Laws.FieldsPlaced.assemble_toNat, OpWord.pcField_eq, OpWord.nextPcField_eq,
    OpWord.takenField_eq, BitVec.toNat_ofNat, BitVec.toNat_ofNat, Nat.mod_mod, Nat.mod_mod]
  have htaken : (decide (w.toNat / 2 ^ 64 % 2 = 1)).toNat = w.toNat / 2 ^ 64 % 2 := by
    rcases Nat.mod_two_eq_zero_or_one (w.toNat / 2 ^ 64) with h0 | h1
    · rw [h0]; rfl
    · rw [h1]; rfl
  rw [htaken]
  simp only [BitVec.reduceToNat]
  omega

/-- Settles O4: the operation is known from the opcode, and its canonical word is computed. -/
theorem encodeDecodeClearsIgnoredFields : Obligations.EncodeDecodeClearsIgnoredFields := by
  refine fun v w i hd => ⟨fun h => ?_, fun h => ?_, fun h => ?_⟩
  · rw [encode_of_decode hd (decodeOp_of_opc_zero h), encodeOp_predict_toNat, OpWord.pcField_eq,
      BitVec.toNat_ofNat, Nat.mod_mod]
  · rw [encode_of_decode hd (decodeOp_of_opc_one h), encodeOp_update_fields h]
  · rw [encode_of_decode hd (decodeOp_of_opc_two h), encodeOp_reset_toNat]

/-- Settles O1: the mask and the fields of nine fixed words, computed. -/
theorem writtenOutWordsDecode : Obligations.WrittenOutWordsDecode :=
  ⟨rfl, rfl, rfl, rfl, rfl, rfl, rfl, rfl, rfl⟩

end Sys2Proof
end

section
/-! PROOFS. What the words of R65 do and what has no effect (30_encoding.md R65), and what a step is (R69). -/

namespace Sys2Proof.Machine

/-- The target of a branch that is not taken is written nowhere (40_indexing_and_primitives.md R93). -/
theorem exec_update_not_taken (s : State) (pc n n' : Word) :
    exec (.updateG pc n false) s = exec (.updateG pc n' false) s ∧
      exec (.updateT pc n false) s = exec (.updateT pc n' false) s := ⟨rfl, rfl⟩

/-- Settles O5: the reserved word stops the step, and decoding looks at the opcode and the fields of the operation alone. -/
theorem reservedRefusedAndIgnoredFieldsIgnored :
    Obligations.ReservedRefusedAndIgnoredFieldsIgnored := by
  refine ⟨fun s w rest hp h => step_of_reservedNext ⟨w, rest, hp, h⟩, fun v w w' h h' hpc => ?_,
    fun v w w' h h' => ?_, fun pc => ⟨encodeOp_predict_toNat pc, encodeOp_predict_toNat pc⟩,
    encodeOp_reset_toNat, exec_update_not_taken, fun v w h => ?_⟩
  · rw [decode_of_decodeOp_ok (decodeOp_of_opc_zero h), decode_of_decodeOp_ok (decodeOp_of_opc_zero h'),
      OpWord.pcField_eq, OpWord.pcField_eq, hpc]
  · rw [decode_of_decodeOp_ok (decodeOp_of_opc_two h), decode_of_decodeOp_ok (decodeOp_of_opc_two h')]
  · obtain ⟨o, ho, -⟩ := decodeOp_of_opc_ne_three h
    exact ⟨_, decode_of_decodeOp_ok ho v⟩

/-- A step whose word decodes to a row is that row on the state without the word. -/
theorem step_of_decode {s : State} {w : OpWord} {rest : List OpWord} {i : Instr}
    (hp : s.pending = w :: rest) (hd : decode s.cfg.variant w = .ok i) :
    step s = exec i { s with pending := rest } := by
  simp only [step, hp, hd]

/-- Settles O6: the two cases of the queue. -/
theorem stepRunsPresentedWord : Obligations.StepRunsPresentedWord := fun _ =>
  ⟨fun _ _ _ => step_of_decode, step_of_pending_nil⟩

/-- Settles O8: each of the four rows asks for its own VARIANT. -/
theorem otherVariantRowRefused : Obligations.OtherVariantRowRefused := by
  refine fun s pc nextPc taken => ⟨fun hv => ?_, fun hv => ?_⟩
  · have hne : s.cfg.variant ≠ .gshare := by simp [hv]
    exact ⟨if_neg hne, if_neg hne⟩
  · have hne : s.cfg.variant ≠ .tournament := by simp [hv]
    exact ⟨if_neg hne, if_neg hne⟩

/-- Settles O9: an idle step changes nothing, and no row changes the parameters. -/
theorem stepKeepsParameters : Obligations.StepKeepsParameters := by
  intro s t h
  rcases step_next h with ⟨-, rfl⟩ | ⟨w, rest, i, -, -, he⟩
  · rfl
  · have hcfg := exec_cfg he
    exact hcfg

end Sys2Proof.Machine
end

section
/-! PROOFS. The rows as operations of the instance's VARIANT: what each reads and writes, for both variants at once
(30_encoding.md R69; 41_gshare.md R100, R101; 42_tournament.md R110, R111). -/

namespace Sys2Proof.Machine

/-- What `exec` does is the operation its row stands for. -/
theorem exec_next_applyOp {i : Instr} {s t : State} (h : exec i s = .next t) :
    t = applyOp s i.toOp := by
  rcases exec_next h with ⟨pc, rfl, hv, rfl⟩ | ⟨pc, n, k, rfl, hv, rfl⟩ | ⟨pc, rfl, hv, rfl⟩ |
    ⟨pc, n, k, rfl, hv, rfl⟩ | ⟨rfl, rfl⟩
  · exact congrArg s.emit (predict_of_gshare hv pc).symm
  · exact (update_of_gshare hv pc n k).symm
  · exact congrArg s.emit (predict_of_tournament hv pc).symm
  · exact (update_of_tournament hv pc n k).symm
  · rfl

/-- The tag of a PC in an instance (40_indexing_and_primitives.md R82). -/
def tagOf (c : Config) (pc : Word) : Word :=
  match c.variant with
  | .gshare => tagG c pc
  | .tournament => tagT c pc

/-- The direction PREDICT follows in an instance. -/
def direction (s : State) (pc : Word) : Bool :=
  match s.cfg.variant with
  | .gshare => directionG s pc
  | .tournament => directionT s pc

theorem tagOf_of_gshare {c : Config} (h : c.variant = .gshare) (pc : Word) : tagOf c pc = tagG c pc := by
  rw [tagOf, h]

theorem tagOf_of_tournament {c : Config} (h : c.variant = .tournament) (pc : Word) :
    tagOf c pc = tagT c pc := by
  rw [tagOf, h]

/-- The tag of a PC as arithmetic (40_indexing_and_primitives.md R82). -/
theorem tagOf_toNat (c : Config) (pc : Word) :
    (tagOf c pc).toNat =
      match c.variant with
      | .gshare => pc.toNat / 4 / 2 ^ c.B
      | .tournament => pc.toNat / 2 ^ c.B := by
  cases hv : c.variant with
  | gshare => rw [tagOf_of_gshare hv, tagG_toNat]
  | tournament => rw [tagOf_of_tournament hv, tagT_toNat]

/-- PREDICT of either variant selects between the BTB entry of the PC and the next word. -/
theorem predict_eq_selectNext (s : State) (pc : Word) :
    predict s pc =
      selectNext pc (direction s pc) (tagOf s.cfg pc) (s.btbAt (btbIndex s.cfg pc)) := by
  cases hv : s.cfg.variant <;> simp only [predict, direction, tagOf, hv] <;> rfl

/-- Whatever else an UPDATE trains, the BTB it leaves is that of its BTB write. -/
theorem update_btb (s : State) (pc n : Word) (k : Bool) :
    (update s pc n k).btb = (s.trainBtb k (btbIndex s.cfg pc) (tagOf s.cfg pc) n).btb := by
  cases hv : s.cfg.variant with
  | gshare =>
    rw [update_of_gshare hv, tagOf_of_gshare hv]
    cases k <;> rfl
  | tournament =>
    rw [update_of_tournament hv, tagOf_of_tournament hv]
    cases k <;> rfl

/-- The BTB after UPDATE: the entry of the PC when taken, else as it was (40_indexing_and_primitives.md R93). -/
theorem update_btbAt (s : State) (pc n : Word) (k : Bool) (j : Nat) :
    (update s pc n k).btbAt j =
      if k = true ∧ j = btbIndex s.cfg pc then BtbEntry.mk true n (tagOf s.cfg pc) else s.btbAt j := by
  rw [State.btbAt, update_btb, ← State.btbAt, State.trainBtb_btbAt]

/-- The same of the entries the table lists. -/
theorem mem_update_btb {s : State} {pc n : Word} {k : Bool} {e : Nat × BtbEntry}
    (h : e ∈ (update s pc n k).btb) :
    e ∈ s.btb ∨ e = (btbIndex s.cfg pc, BtbEntry.mk true n (tagOf s.cfg pc)) := by
  rw [update_btb] at h
  cases k with
  | false => exact .inl h
  | true =>
    rw [State.trainBtb_true, State.writeBtb_btb, Table.mem_write] at h
    rcases h with ⟨-, he⟩ | ⟨he, -⟩
    · exact .inr he
    · exact .inl he

/-! ### Sequences of operations (20_memory.md R48) -/

theorem applyOps_cons (s : State) (o : Op) (ops : List Op) :
    applyOps s (o :: ops) = applyOps (applyOp s o) ops := rfl

theorem applyOps_append (s : State) (ops more : List Op) :
    applyOps s (ops ++ more) = applyOps (applyOps s ops) more := List.foldl_append

@[simp] theorem applyOps_cfg (s : State) (ops : List Op) : (applyOps s ops).cfg = s.cfg := by
  induction ops generalizing s with
  | nil => rfl
  | cons o ops ih => rw [applyOps_cons, ih, applyOp_cfg]

@[simp] theorem applyOps_pending (s : State) (ops : List Op) : (applyOps s ops).pending = s.pending := by
  induction ops generalizing s with
  | nil => rfl
  | cons o ops ih => rw [applyOps_cons, ih, applyOp_pending]

/-- Settles O10: operations are applied one after the other, and none touches the parameters or the queue. -/
theorem operationSequencesComplete : Obligations.OperationSequencesComplete := by
  refine fun ops s => ⟨applyOps s ops, runOps_eq ops s, applyOps_cfg s ops, applyOps_pending s ops,
    fun more => ?_⟩
  rw [runOps_eq, runOps_eq, applyOps_append]

end Sys2Proof.Machine
end

section
/-! PROOFS. The invariant of an instance: it holds after construction and every step keeps it (10_state.md R20, R32, R33, R37;
20_memory.md R41). -/

namespace Sys2Proof.Machine

theorem resetOf_inv (c : Config) : (State.resetOf c).Inv :=
  ⟨Nat.two_pow_pos c.H, fun _ => rfl, clear_tablesWf (State.resetOf c), nofun, fun _ => ⟨rfl, rfl, rfl⟩⟩

/-- Settles O34: nothing is listed in a reset state, and construction gives one. -/
theorem resetStateMeetsInvariant : Obligations.ResetStateMeetsInvariant := by
  refine ⟨resetOf_inv, resetOf_inv _, fun p s h => ?_⟩
  obtain ⟨c, rfl⟩ := construct_next h
  exact resetOf_inv c

/-- Shifting a value of `m` bits right by `b` leaves `m - b` bits, or none. -/
theorem div_two_pow_lt {x m : Nat} (h : x < 2 ^ m) (b : Nat) : x / 2 ^ b < 2 ^ (m - b) := by
  apply Nat.div_lt_of_lt_mul
  calc x < 2 ^ m := h
    _ ≤ 2 ^ (b + (m - b)) := Nat.pow_le_pow_right (by decide) (by omega)
    _ = 2 ^ b * 2 ^ (m - b) := Nat.pow_add ..

theorem tagOf_lt_tagBound (c : Config) (pc : Word) : (tagOf c pc).toNat < tagBound c := by
  have hpc := pc.isLt
  cases hv : c.variant with
  | gshare =>
    rw [tagOf_of_gshare hv, tagG_toNat, tagBound, hv]
    exact div_two_pow_lt (by omega) c.B
  | tournament =>
    rw [tagOf_of_tournament hv, tagT_toNat, tagBound, hv]
    exact div_two_pow_lt hpc c.B

/-- An UPDATE lists at most one new entry, and lists it valid with the tag of its PC. -/
theorem update_btbTrained {s : State} (h : s.btbTrained) (pc n : Word) (k : Bool) :
    (update s pc n k).btbTrained := by
  intro e he
  rw [update_cfg]
  rcases mem_update_btb he with he | rfl
  · exact h e he
  · exact ⟨rfl, tagOf_lt_tagBound s.cfg pc⟩

theorem exec_btbTrained {i : Instr} {s t : State} (h : exec i s = .next t) (hs : s.btbTrained) :
    t.btbTrained := by
  rw [exec_next_applyOp h]
  cases i.toOp with
  | predict pc => exact hs
  | update pc n k => exact update_btbTrained hs pc n k
  | reset => exact nofun

/-- A GSHARE instance runs no row that writes a local table. -/
theorem exec_noLocalTables {i : Instr} {s t : State} (h : exec i s = .next t) (hs : s.noLocalTables) :
    t.noLocalTables := by
  intro hv
  rw [exec_cfg h] at hv
  rcases exec_next h with ⟨pc, -, -, rfl⟩ | ⟨pc, n, k, -, -, rfl⟩ | ⟨pc, -, -, rfl⟩ |
    ⟨pc, n, k, -, ht, -⟩ | ⟨-, rfl⟩
  · exact hs hv
  · simpa using hs hv
  · exact hs hv
  · cases hv.symm.trans ht
  · exact ⟨rfl, rfl, rfl⟩

/-- Every row keeps each part of the invariant. -/
theorem exec_inv (i : Instr) (s t : State) (h : exec i s = .next t) (hs : s.Inv) : t.Inv := by
  obtain ⟨hghr, hzero, hwf, htrained, hlocal⟩ := hs
  exact ⟨exec_ghrInRange i s t h hghr, exec_ghrZeroInTournament i s t h hzero, exec_tablesWf h hwf,
    exec_btbTrained h htrained, exec_noLocalTables h hlocal⟩

/-- Settles O35: taking a word off the queue touches no part of the invariant, and every row keeps it. -/
theorem stepKeepsInvariant : Obligations.StepKeepsInvariant := by
  intro s t hs h
  rcases step_next h with ⟨-, rfl⟩ | ⟨w, rest, i, -, -, he⟩
  · exact hs
  · exact exec_inv i _ t he hs

theorem Reachable.inv {s : State} (h : Reachable s) : s.Inv :=
  h.of_exec resetOf_inv (fun _ _ hs => hs) exec_inv

/-- An entry is the reset value or is listed, and a listed one has a tag some PC has. -/
theorem State.Inv.tag_lt {s : State} (h : s.Inv) (i : Nat) : (s.btbAt i).tag.toNat < tagBound s.cfg := by
  obtain ⟨-, -, -, htrained, -⟩ := h
  by_cases he : s.btbAt i = BtbEntry.reset
  · rw [he]
    exact Nat.zero_lt_of_lt (tagOf_lt_tagBound s.cfg 0)
  · exact (htrained _ (Table.mem_of_read_ne _ _ _ he)).2

/-- Settles O37: the bound on listed tags is part of the invariant of every reachable state. -/
theorem reachableTagsAreBounded : Obligations.ReachableTagsAreBounded := by
  intro s h i
  have hlt := h.inv.tag_lt i
  refine ⟨fun hv => ?_, fun hv => ?_⟩ <;>
  · rw [tagBound, hv] at hlt
    exact Nat.le_sub_one_of_lt hlt

end Sys2Proof.Machine
end

section
/-! PROOFS. Which operations write a BTB entry, and what PREDICT gives without one (20_memory.md R52;
70_reset_and_hazards.md R150, R160). -/

namespace Sys2Proof.Machine

/-- An operation other than RESET leaves an entry alone or is a taken UPDATE of its index. -/
theorem applyOp_btbAt {s : State} {o : Op} (ho : o ≠ .reset) (j : Nat) :
    (applyOp s o).btbAt j = s.btbAt j ∨ ∃ pc n, o = .update pc n true ∧ j = btbIndex s.cfg pc ∧
      (applyOp s o).btbAt j = BtbEntry.mk true n (tagOf s.cfg pc) := by
  cases o with
  | predict pc => exact .inl rfl
  | reset => exact absurd rfl ho
  | update pc n k =>
    rw [applyOp, update_btbAt]
    split
    · next h => exact .inr ⟨pc, n, by rw [h.1], h.2, rfl⟩
    · exact .inl rfl

/-- Settles O38: only a taken UPDATE changes an entry, to a valid one; RESET empties every table. -/
theorem onlyResetClearsValid : Obligations.OnlyResetClearsValid := by
  refine ⟨fun s t i j h hi => ?_, fun s t h j => ?_⟩
  · rw [exec_next_applyOp h]
    rcases applyOp_btbAt (s := s) (Instr.toOp_ne_reset hi) j with he | ⟨pc, n, ho, hj, he⟩
    · rw [he]
      exact ⟨id, .inl rfl⟩
    · rw [he]
      exact ⟨fun _ => rfl, .inr ⟨pc, n, ho, by rw [hj, btbIndex_eq], rfl, rfl⟩⟩
  · cases h
    exact ⟨rfl, rfl, rfl, rfl, rfl⟩

/-- The BTB holds no target for the PC: its entry is invalid or of another tag. -/
def State.Cold (s : State) (pc : Word) : Prop :=
  (s.btbAt (btbIndex s.cfg pc)).valid = true → (s.btbAt (btbIndex s.cfg pc)).tag ≠ tagOf s.cfg pc

/-- Without a hit the result is the wrapped sum (40_indexing_and_primitives.md R94, R95). -/
theorem predict_of_cold {s : State} {pc : Word} (h : s.Cold pc) :
    predict s pc = BitVec.ofNat 32 (pc.toNat + 4) := by
  rw [predict_eq_selectNext, selectNext_eq, if_neg]
  rintro ⟨-, hvalid, htag⟩
  exact h hvalid (BitVec.eq_of_toNat_eq htag)

theorem exec_predict_of_cold {s : State} {pc : Word} (h : s.Cold pc) {v : Variant}
    (hv : s.cfg.variant = v) :
    exec ((Op.predict pc).toInstr v) s =
      .next { s with results := s.results ++ [BitVec.ofNat 32 (pc.toNat + 4)] } := by
  subst hv
  rw [exec_toInstr, applyOp, predict_of_cold h, State.emit]

theorem clear_cold (s : State) (pc : Word) : s.clear.Cold pc := nofun

/-- Settles O31: after RESET every entry is invalid. -/
theorem predictAfterResetIsSequential : Obligations.PredictAfterResetIsSequential := by
  intro s t pc h
  cases h
  exact exec_predict_of_cold (clear_cold s pc) rfl

/-- Only a taken UPDATE of the same index and tag gives the PC a target. -/
theorem applyOp_cold {s : State} {pc : Word} {o : Op} (h : s.Cold pc)
    (ho : ∀ q n, o = .update q n true → btbIndex s.cfg q = btbIndex s.cfg pc →
      tagOf s.cfg q ≠ tagOf s.cfg pc) : (applyOp s o).Cold pc := by
  by_cases hr : o = .reset
  · rw [hr]
    exact clear_cold s pc
  · rw [State.Cold, applyOp_cfg]
    rcases applyOp_btbAt (s := s) hr (btbIndex s.cfg pc) with he | ⟨q, n, hq, hj, he⟩
    · rw [he]
      exact h
    · rw [he]
      exact fun _ => ho q n hq hj.symm

theorem applyOps_cold {s : State} {pc : Word} {ops : List Op} (h : s.Cold pc)
    (ho : ∀ q n, Op.update q n true ∈ ops → btbIndex s.cfg q = btbIndex s.cfg pc →
      tagOf s.cfg q ≠ tagOf s.cfg pc) : (applyOps s ops).Cold pc := by
  induction ops generalizing s with
  | nil => exact h
  | cons o ops ih =>
    have hhead : (applyOp s o).Cold pc :=
      applyOp_cold h fun q n hq => ho q n (hq ▸ List.mem_cons_self)
    refine ih hhead fun q n hq => ?_
    rw [applyOp_cfg]
    exact ho q n (List.mem_cons_of_mem _ hq)

/-- Settles O40: from the reset state on, no operation gives the PC a target. -/
theorem coldBranchFallsThrough : Obligations.ColdBranchFallsThrough := by
  intro c ops pc tag h
  have htag : ∀ q, (tagOf c q).toNat = tag q := tagOf_toNat c
  have hcold : (applyOps (State.resetOf c) ops).Cold pc := by
    refine applyOps_cold (s := State.resetOf c) nofun fun q n hq hi heq => ?_
    rw [State.resetOf_cfg, btbIndex_eq, btbIndex_eq] at hi
    refine h q n hq hi ?_
    rw [← htag, ← htag]
    exact congrArg BitVec.toNat heq
  exact ⟨_, runOps_eq ops _, exec_predict_of_cold hcold (by rw [applyOps_cfg, State.resetOf_cfg])⟩

end Sys2Proof.Machine
end

section
/-! PROOFS. What an invalid BTB entry holds is unobservable: a relation between states that every operation keeps and that
makes their predictions equal (10_state.md R34, R36). -/

namespace Sys2Proof.Machine

theorem updateG_lhtAt (s : State) (pc n : Word) (k : Bool) (j : Nat) :
    (updateG s pc n k).lhtAt j = s.lhtAt j := by
  rw [State.lhtAt, updateG_lht, State.lhtAt]

theorem updateG_lphtAt (s : State) (pc n : Word) (k : Bool) (j : Nat) :
    (updateG s pc n k).lphtAt j = s.lphtAt j := by
  rw [State.lphtAt, updateG_lpht, State.lphtAt]

theorem updateG_metaAt (s : State) (pc n : Word) (k : Bool) (j : Nat) :
    (updateG s pc n k).metaAt j = s.metaAt j := by
  rw [State.metaAt, updateG_metaTab, updateG_cfg, State.metaAt]

/-- Two entries that are equal or both invalid. -/
def BtbEntry.SameUpToInvalid (e f : BtbEntry) : Prop :=
  e = f ∨ (e.valid = false ∧ f.valid = false)

/-- An invalid entry is no hit, so what it holds is not selected. -/
theorem selectNext_congr {e f : BtbEntry} (h : e.SameUpToInvalid f) (pc : Word) (dir : Bool)
    (tag : Word) : selectNext pc dir tag e = selectNext pc dir tag f := by
  rcases h with rfl | ⟨he, hf⟩
  · rfl
  · simp [selectNext, btbHit, he, hf]

section Related

variable {s t : State} (h : s.sameUpToInvalid t)
include h

theorem State.sameUpToInvalid.results : s.results = t.results := by
  obtain ⟨-, -, hres, -⟩ := h
  exact hres

theorem State.sameUpToInvalid.direction (pc : Word) : direction s pc = direction t pc := by
  obtain ⟨hcfg, hghr, -, hpht, hlht, hlpht, hmeta, -⟩ := h
  simp only [Machine.direction, directionG, directionT, gsharePred, localPred, hcfg, hghr, hpht, hlht,
    hlpht, hmeta]

theorem State.sameUpToInvalid.predict (pc : Word) : predict s pc = predict t pc := by
  have hdir := h.direction pc
  obtain ⟨hcfg, -, -, -, -, -, -, hbtb⟩ := h
  rw [predict_eq_selectNext, predict_eq_selectNext, hdir, hcfg]
  exact selectNext_congr (hbtb _) ..

theorem State.sameUpToInvalid.emit (v : Word) : (s.emit v).sameUpToInvalid (t.emit v) := by
  obtain ⟨hcfg, hghr, hres, hpht, hlht, hlpht, hmeta, hbtb⟩ := h
  exact ⟨hcfg, hghr, by rw [State.emit_results, State.emit_results, hres], hpht, hlht, hlpht, hmeta,
    hbtb⟩

theorem State.sameUpToInvalid.clear : s.clear.sameUpToInvalid t.clear := by
  obtain ⟨hcfg, -, hres, -⟩ := h
  exact ⟨hcfg, rfl, hres, fun _ => rfl, fun _ => rfl, fun _ => rfl,
    fun _ => congrArg Config.metaReset hcfg, fun _ => .inl rfl⟩

/-- UPDATE writes the same entry on both sides, without a look at the old one, and leaves the others related. -/
theorem State.sameUpToInvalid.update_btbAt (pc n : Word) (k : Bool) (j : Nat) :
    ((update s pc n k).btbAt j).SameUpToInvalid ((update t pc n k).btbAt j) := by
  obtain ⟨hcfg, -, -, -, -, -, -, hbtb⟩ := h
  rw [Machine.update_btbAt, Machine.update_btbAt, hcfg]
  split
  · exact .inl rfl
  · exact hbtb j

/-- What UPDATE trains is read from the fields in which the states agree. -/
theorem State.sameUpToInvalid.update (pc n : Word) (k : Bool) :
    (update s pc n k).sameUpToInvalid (update t pc n k) := by
  have hbtb' := h.update_btbAt pc n k
  obtain ⟨hcfg, hghr, hres, hpht, hlht, hlpht, hmeta, -⟩ := h
  cases hv : s.cfg.variant with
  | gshare =>
    have hv' : t.cfg.variant = .gshare := hcfg ▸ hv
    rw [update_of_gshare hv, update_of_gshare hv'] at hbtb' ⊢
    refine ⟨by simpa using hcfg, ?_, by simpa using hres, fun j => ?_, fun j => ?_, fun j => ?_,
      fun j => ?_, hbtb'⟩
    · rw [updateG_ghr, updateG_ghr, hcfg, hghr]
    · rw [updateG_phtAt, updateG_phtAt, hcfg, hghr, hpht]
    · rw [updateG_lhtAt, updateG_lhtAt, hlht]
    · rw [updateG_lphtAt, updateG_lphtAt, hlpht]
    · rw [updateG_metaAt, updateG_metaAt, hmeta]
  | tournament =>
    have hv' : t.cfg.variant = .tournament := hcfg ▸ hv
    have hix : lphtIndexOf s pc = lphtIndexOf t pc := by
      rw [lphtIndexOf, lphtIndexOf, hcfg, hlht]
    rw [update_of_tournament hv, update_of_tournament hv'] at hbtb' ⊢
    refine ⟨by simpa using hcfg, by simpa using hghr, by simpa using hres, fun j => ?_, fun j => ?_,
      fun j => ?_, fun j => ?_, hbtb'⟩
    · rw [updateT_phtAt, updateT_phtAt, hcfg, hghr, hpht]
    · rw [updateT_lhtAt, updateT_lhtAt, hcfg, hlht]
    · rw [updateT_lphtAt, updateT_lphtAt, hix, hlpht]
    · rw [updateT_metaAt, updateT_metaAt, hcfg, hghr, hpht, hix, hlpht, hmeta]

theorem State.sameUpToInvalid.applyOp (o : Op) : (applyOp s o).sameUpToInvalid (applyOp t o) := by
  cases o with
  | predict pc =>
    rw [Machine.applyOp, Machine.applyOp, h.predict]
    exact h.emit _
  | update pc n k => exact h.update pc n k
  | reset => exact h.clear

end Related

theorem State.sameUpToInvalid.applyOps {s t : State} (h : s.sameUpToInvalid t) (ops : List Op) :
    (applyOps s ops).sameUpToInvalid (applyOps t ops) := by
  induction ops generalizing s t with
  | nil => exact h
  | cons o ops ih => exact ih (h.applyOp o)

/-- Settles O43: every operation keeps the relation, and related states have the same results. -/
theorem invalidEntriesAreUnobservable : Obligations.InvalidEntriesAreUnobservable := by
  intro ops s t h
  have hrel := h.applyOps ops
  exact ⟨_, _, runOps_eq ops s, runOps_eq ops t, hrel.results, hrel⟩

end Sys2Proof.Machine
end

section
/-! PROOFS. What an operation does not look at: earlier results, the BTB in training, the local tables in GSHARE, the
sub-predictor not selected, the two lowest bits of a PC (20_memory.md R43, R45; 41_gshare.md R104; 42_tournament.md R110;
60_exceptions.md R142). -/

namespace Sys2Proof.Machine

/-! ### PREDICT is read-only (20_memory.md R45) -/

theorem predict_emit (s : State) (v pc : Word) : predict (s.emit v) pc = predict s pc := rfl

/-- PREDICTs in a row add their results, each that of the state they all see. -/
theorem applyOps_predicts (pcs : List Word) (s : State) :
    applyOps s (pcs.map Op.predict) = { s with results := s.results ++ pcs.map (predict s) } := by
  induction pcs generalizing s with
  | nil => simp [applyOps]
  | cons pc pcs ih =>
    have hpred : predict (s.emit (predict s pc)) = predict s := funext (predict_emit s _)
    rw [List.map_cons, applyOps_cons, applyOp, ih, hpred]
    simp [State.emit]

/-- Settles O39: a PREDICT changes nothing a PREDICT reads. -/
theorem predictsInARowSeeOneState : Obligations.PredictsInARowSeeOneState := by
  intro pcs s
  rw [runOps_eq, applyOps_predicts]

/-! ### Training (60_exceptions.md R142) -/

/-- Settles O42: in each variant the five fields are computed without the BTB and the results; the BTB write comes last. -/
theorem trainingIgnoresBtbAndPredictions : Obligations.TrainingIgnoresBtbAndPredictions := by
  intro s btb results pc nextPc taken
  simp only [update]
  split <;> cases taken <;> exact ⟨rfl, rfl, rfl, rfl, rfl⟩

/-! ### The local tables of a GSHARE instance (41_gshare.md R104) -/

/-- The state with other local tables. -/
def State.withLocal (s : State) (lht : Table LocalHistory) (lpht : Table Counter2)
    (mt : Table Counter3) : State :=
  { s with lht := lht, lpht := lpht, metaTab := mt }

theorem updateG_withLocal (s : State) (lht : Table LocalHistory) (lpht : Table Counter2)
    (mt : Table Counter3) (pc n : Word) (k : Bool) :
    updateG (s.withLocal lht lpht mt) pc n k = (updateG s pc n k).withLocal lht lpht mt := by
  cases k <;> rfl

/-- Settles O21: both GSHARE rows commute with replacing the local tables. -/
theorem gshareRowsIgnoreLocalTables : Obligations.GshareRowsIgnoreLocalTables := by
  intro s i lht lpht mt hv hwf hi
  cases i with
  | predictG pc =>
    exact ⟨_, exec_predictG_of_gshare hv pc,
      exec_predictG_of_gshare (s := s.withLocal lht lpht mt) hv pc⟩
  | updateG pc n k =>
    refine ⟨_, exec_updateG_of_gshare hv pc n k,
      (exec_updateG_of_gshare (s := s.withLocal lht lpht mt) hv pc n k).trans ?_⟩
    rw [updateG_withLocal, State.withLocal]
  | predictT | updateT => cases hwf
  | reset => exact absurd rfl hi

/-! ### The sub-predictor not selected (42_tournament.md R110) -/

theorem direction_of_tournament {s : State} (h : s.cfg.variant = .tournament) (pc : Word) :
    direction s pc = dir2 (selectedCounter s pc) := by
  rw [direction, h, ← directionT_eq]

theorem selectedCounter_of_four_le {s : State} {pc : Word}
    (h : 4 ≤ (s.metaAt (btbIndex s.cfg pc)).toNat) :
    selectedCounter s pc = s.phtAt (phtIndex s.cfg s.ghr pc) := if_pos h

theorem selectedCounter_of_lt_four {s : State} {pc : Word}
    (h : (s.metaAt (btbIndex s.cfg pc)).toNat < 4) :
    selectedCounter s pc = s.lphtAt (lphtIndexOf s pc) := if_neg (Nat.not_le.2 h)

/-- A TOURNAMENT prediction is a function of the selected counter and the BTB entry. -/
theorem predict_congr_of_tournament {s t : State} {pc : Word} (hv : s.cfg.variant = .tournament)
    (hcfg : t.cfg = s.cfg) (hbtb : t.btbAt (btbIndex s.cfg pc) = s.btbAt (btbIndex s.cfg pc))
    (hc : selectedCounter t pc = selectedCounter s pc) : predict t pc = predict s pc := by
  have hv' : t.cfg.variant = .tournament := hcfg ▸ hv
  rw [predict_eq_selectNext, predict_eq_selectNext, direction_of_tournament hv,
    direction_of_tournament hv', hc, hcfg, hbtb]

/-- Settles O29: META names the counter that is read; the other one is not looked at. -/
theorem unselectedSubPredictorHasNoInfluence : Obligations.UnselectedSubPredictorHasNoInfluence := by
  intro s t pc hv hcfg bi hmeta hbtb
  have hbi : btbIndex s.cfg pc = bi := btbIndex_eq s.cfg pc
  rw [← hbi] at hmeta hbtb ⊢
  refine ⟨fun hm hghr hpht => predict_congr_of_tournament hv hcfg hbtb ?_,
    fun hm hlht hlpht => predict_congr_of_tournament hv hcfg hbtb ?_⟩
  · rw [selectedCounter_of_four_le hm, selectedCounter_of_four_le (by rwa [hcfg, hmeta]), hcfg, hghr,
      hpht]
  · rw [selectedCounter_of_lt_four hm, selectedCounter_of_lt_four (by rwa [hcfg, hmeta]), hlpht,
      lphtIndexOf, lphtIndexOf, hcfg, lhtIndex_eq, hlht]

/-! ### PCs of one word (20_memory.md R43) -/

section OneWord

variable {p q : Word} (h : p.toNat / 4 = q.toNat / 4)
include h

theorem btbIndex_congr (c : Config) : btbIndex c p = btbIndex c q := by
  rw [btbIndex_eq, btbIndex_eq, h]

theorem phtIndex_congr (c : Config) (g : Word) : phtIndex c g p = phtIndex c g q := by
  rw [phtIndex_eq, phtIndex_eq, h]

theorem tagG_congr (c : Config) : tagG c p = tagG c q := by
  rw [tagG_eq, tagG_eq, h]

/-- The TOURNAMENT tag leaves out the byte offset when at least two bits are shifted out. -/
theorem tagT_congr {c : Config} (hB : 2 ≤ c.B) : tagT c p = tagT c q := by
  have hpow : 2 ^ c.B = 4 * 2 ^ (c.B - 2) := by
    rw [show 4 = 2 ^ 2 from rfl, ← Nat.pow_add, Nat.add_sub_cancel' hB]
  rw [tagT_eq, tagT_eq, hpow, ← Nat.div_div_eq_div_mul, ← Nat.div_div_eq_div_mul, h]

theorem tagOf_congr {c : Config} (hc : c.variant = .gshare ∨ 2 ≤ c.B) : tagOf c p = tagOf c q := by
  cases hv : c.variant with
  | gshare => rw [tagOf_of_gshare hv, tagOf_of_gshare hv, tagG_congr h]
  | tournament =>
    have hB : 2 ≤ c.B := hc.resolve_left (by simp [hv])
    rw [tagOf_of_tournament hv, tagOf_of_tournament hv, tagT_congr h hB]

theorem direction_congr (s : State) : direction s p = direction s q := by
  simp only [direction, directionG, directionT, gsharePred, localPred, lhtIndex_eq,
    btbIndex_congr h, phtIndex_congr h]

theorem update_congr {s : State} (hc : s.cfg.variant = .gshare ∨ 2 ≤ s.cfg.B) (n : Word) (k : Bool) :
    update s p n k = update s q n k := by
  have htag := tagOf_congr h hc
  cases hv : s.cfg.variant with
  | gshare =>
    rw [tagOf_of_gshare hv, tagOf_of_gshare hv] at htag
    simp only [update_of_gshare hv, updateG, btbIndex_congr h, phtIndex_congr h, htag]
  | tournament =>
    rw [tagOf_of_tournament hv, tagOf_of_tournament hv] at htag
    simp only [update_of_tournament hv, updateT, lhtIndex_eq, btbIndex_congr h, phtIndex_congr h, htag]

end OneWord

/-- Settles O41: index, tag and direction are those of the word, so both PCs hit or neither does. -/
theorem misalignedPcIsTheSameSite : Obligations.MisalignedPcIsTheSameSite := by
  intro s p q h hc e
  have he : s.btbAt (btbIndex s.cfg q) = e := by rw [btbIndex_eq, ← h]
  refine ⟨?_, fun n k => update_congr h hc n k⟩
  rw [predict_eq_selectNext, predict_eq_selectNext, direction_congr h, tagOf_congr h hc,
    btbIndex_congr h, he, selectNext_eq, selectNext_eq]
  by_cases hhit : direction s q = true ∧ e.valid = true ∧ e.tag.toNat = (tagOf s.cfg q).toNat
  · rw [if_pos hhit, if_pos hhit]
    exact .inl ⟨rfl, rfl⟩
  · rw [if_neg hhit, if_neg hhit]
    exact .inr ⟨rfl, rfl⟩

end Sys2Proof.Machine
end

section
/-! PROOFS. Presented words, clock cycles and traces are operations run one after the other (30_encoding.md R61, R62, R67;
70_reset_and_hazards.md R155). -/

namespace Sys2Proof.Machine

/-! ### The queue of presented words -/

/-- The state with the words `q` presented. -/
def State.withPending (s : State) (q : List OpWord) : State := { s with pending := q }

theorem State.withPending_self (s : State) : s.withPending s.pending = s := rfl

theorem update_withPending (s : State) (q : List OpWord) (pc n : Word) (k : Bool) :
    update (s.withPending q) pc n k = (update s pc n k).withPending q := by
  cases hv : s.cfg.variant with
  | gshare =>
    rw [update_of_gshare hv, update_of_gshare (s := s.withPending q) hv]
    cases k <;> rfl
  | tournament =>
    rw [update_of_tournament hv, update_of_tournament (s := s.withPending q) hv]
    cases k <;> rfl

/-- No operation reads or writes the queue (20_memory.md R48). -/
theorem applyOp_withPending (s : State) (q : List OpWord) (o : Op) :
    applyOp (s.withPending q) o = (applyOp s o).withPending q := by
  cases o with
  | predict pc => rfl
  | update pc n k => exact update_withPending s q pc n k
  | reset => rfl

theorem applyOps_withPending (s : State) (q : List OpWord) (ops : List Op) :
    applyOps (s.withPending q) ops = (applyOps s ops).withPending q := by
  induction ops generalizing s with
  | nil => rfl
  | cons o ops ih => rw [applyOps_cons, applyOps_cons, applyOp_withPending, ih]

theorem step_withPending_of_decodeOp {w : OpWord} {o : Op} (hd : decodeOp w = .ok o) (s : State)
    (rest : List OpWord) :
    step (s.withPending (w :: rest)) = .next ((applyOp s o).withPending rest) := by
  rw [← applyOp_withPending]
  exact step_of_decodeOp rfl hd

/-- One step for each presented operation, in the order of the queue. -/
theorem runSteps_encoded (ops : List Op) (s : State) (rest : List OpWord) :
    runSteps ops.length (s.withPending (ops.map encodeOp ++ rest)) =
      .next ((applyOps s ops).withPending rest) := by
  induction ops generalizing s with
  | nil => rfl
  | cons o ops ih =>
    have hstep := step_withPending_of_decodeOp (decodeOp_encodeOp o) s (ops.map encodeOp ++ rest)
    rw [List.map_cons, List.cons_append, List.length_cons, runSteps, hstep, applyOps_cons]
    exact ih (applyOp s o)

/-! ### Clock cycles (70_reset_and_hazards.md R155) -/

/-- The operations of a cycle, the PREDICT first, take the state where the cycle takes it. -/
theorem applyOps_cycleOps (s : State) (p : Ports) (sampled : Bool) :
    applyOps s (cycleOps p sampled) = cycle s p sampled := by
  have hedge : ∀ u : State, applyOps u
      (if p.rst then [.reset]
       else if p.updValid then [.update p.updPc p.updNextPc p.updTaken] else []) = clockEdge u p := by
    intro u
    rw [clockEdge]
    split_ifs <;> rfl
  rw [cycleOps, applyOps_append, hedge, cycle]
  cases sampled <;> rfl

theorem clockEdge_results (s : State) (p : Ports) : (clockEdge s p).results = s.results := by
  rw [clockEdge]
  split_ifs
  · rfl
  · exact update_results ..
  · rfl

/-- The sampled value is the prediction before the edge, and the edge keeps it. -/
theorem cycle_results (s : State) (p : Ports) (sampled : Bool) :
    (cycle s p sampled).results = s.results ++ (if sampled then [predict s p.predPc] else []) := by
  rw [cycle, clockEdge_results]
  cases sampled
  · exact (List.append_nil _).symm
  · rfl

/-- Settles O45: the presented words are the operations of the cycle, which are run in order. -/
theorem clockCycleIsItsOperationsInOrder : Obligations.ClockCycleIsItsOperationsInOrder := by
  refine fun s p sampled rest hp => ⟨?_, cycle_results s p sampled⟩
  have hrun := runSteps_encoded (cycleOps p sampled) s rest
  rwa [← hp, State.withPending_self, applyOps_cycleOps] at hrun

/-- The ports of an operation do that operation (30_encoding.md R62). -/
theorem cycle_opPorts (s : State) (o : Op) : cycle s (opPorts o) (opSampled o) = applyOp s o := by
  cases o <;> rfl

/-- Settles O46: a step on the word runs its operation, which is the cycle of its ports; these carry the word's fields. -/
theorem operationWordIsOneCycleOfPorts : Obligations.OperationWordIsOneCycleOfPorts := by
  intro s w rest o hp hd
  refine ⟨?_, fun h => ?_, fun h => ?_, fun h => ?_⟩
  · have hstep := step_withPending_of_decodeOp hd s rest
    rwa [← hp, State.withPending_self, ← cycle_opPorts] at hstep
  · cases hd.symm.trans (decodeOp_of_opc_zero h)
    refine ⟨?_, rfl, rfl, rfl⟩
    rw [opPorts, OpWord.pcField_eq, BitVec.toNat_ofNat, Nat.mod_mod]
  · cases hd.symm.trans (decodeOp_of_opc_one h)
    refine ⟨rfl, ?_, ?_, OpWord.takenField_eq w, rfl⟩
    · rw [opPorts, OpWord.pcField_eq, BitVec.toNat_ofNat, Nat.mod_mod]
    · rw [opPorts, OpWord.nextPcField_eq, BitVec.toNat_ofNat, Nat.mod_mod]
  · cases hd.symm.trans (decodeOp_of_opc_two h)
    rfl

/-! ### Traces (30_encoding.md R67) -/

/-- Lines that are read as operations are one operation each. -/
theorem traceOps_ok {ls : List TraceLine} {os : List Op} (h : traceOps ls = .ok os) :
    ls.filterMap TraceLine.toOp? = os ∧ os.length = ls.length := by
  induction ls generalizing os with
  | nil =>
    cases h
    exact ⟨rfl, rfl⟩
  | cons l ls ih =>
    rw [traceOps] at h
    split at h
    · next o os' ho hos =>
      cases h
      obtain ⟨hmap, hlen⟩ := ih hos
      exact ⟨by rw [List.filterMap_cons_some ho, hmap], by rw [List.length_cons, List.length_cons, hlen]⟩
    · cases h
    · cases h

/-- A trace that loads is the constructed state with the words of its operations presented. -/
theorem loadTrace_ok {p : Params} {ls : List TraceLine} {s : State}
    (h : loadTrace (.config p :: ls) = .ok s) :
    ∃ s0 os, construct p = .next s0 ∧ traceOps ls = .ok os ∧ s = s0.withPending (os.map encodeOp) := by
  rw [loadTrace] at h
  split at h
  · next s0 os hc ho =>
    cases h
    exact ⟨s0, os, hc, ho, rfl⟩
  · cases h
  · cases h
  · next f _ => cases f

/-- Settles O47: the words of the lines are presented to the constructed state and run one step each. -/
theorem traceRunsItsOperations : Obligations.TraceRunsItsOperations := by
  intro p ls s h
  obtain ⟨s0, os, hc, ho, rfl⟩ := loadTrace_ok h
  obtain ⟨hmap, hlen⟩ := traceOps_ok ho
  have hnil : s0.pending = [] := by
    obtain ⟨c, rfl⟩ := construct_next hc
    rfl
  have hrun := runSteps_encoded os s0 []
  rw [List.append_nil, ← hnil, ← applyOps_withPending, State.withPending_self, hlen] at hrun
  exact ⟨s0, applyOps s0 os, hc, by rw [hmap, runOps_eq], hrun⟩

end Sys2Proof.Machine
end

section
/-! PROOFS. The legality conditions of construction (00_scope.md R6, R9; 60_exceptions.md R131). -/

namespace Sys2Proof

/-- The checks of 60_exceptions.md R131, all passed. -/
def Params.Legal (p : Params) : Prop :=
  p.btbSize ≠ 0 ∧ p.btbSize &&& (p.btbSize - 1) = 0 ∧ 1 ≤ p.bhrSize.toNat ∧ p.bhrSize.toNat ≤ 32 ∧
    (p.variant = .tournament → p.metaReset ≤ 7)

theorem Params.wf_iff_legal (p : Params) : p.wf = true ↔ p.Legal := by
  have hvariant : (p.variant = .gshare ∨ p.metaReset ≤ 7) ↔
      (p.variant = .tournament → p.metaReset ≤ 7) := by
    cases p.variant <;> simp
  simp only [Params.wf, Params.Legal, Bool.and_eq_true, Bool.or_eq_true, bne_iff_ne, beq_iff_eq,
    decide_eq_true_eq, hvariant, and_assoc]

/-- Check 2 is the textbook test for a power of two; on words it is that on naturals. -/
theorem and_sub_one_eq_zero_iff {x : Word} (hx : x ≠ 0) :
    x &&& (x - 1) = 0 ↔ x.toNat.isPowerOfTwo := by
  have hne : x.toNat ≠ 0 := fun h => hx (BitVec.eq_of_toNat_eq h)
  have hsub : (x - 1).toNat = x.toNat - 1 :=
    BitVec.toNat_sub_of_le (BitVec.le_def.2 (Nat.one_le_iff_ne_zero.2 hne))
  have hzero : x &&& (x - 1) = 0 ↔ (x &&& (x - 1)).toNat = 0 := BitVec.toNat_inj.symm
  rw [hzero, BitVec.toNat_and, hsub, Nat.and_sub_one_eq_zero_iff_isPowerOfTwo hne]

/-- A legal `BTB_SIZE` is `2^B` with `B` in 0..31 (00_scope.md R6). -/
theorem btbSize_pow_two_iff (x : Word) :
    (x ≠ 0 ∧ x &&& (x - 1) = 0) ↔ ∃ b ≤ 31, x.toNat = 2 ^ b := by
  constructor
  · rintro ⟨hx, hand⟩
    obtain ⟨b, hb⟩ := (and_sub_one_eq_zero_iff hx).1 hand
    have hlt : 2 ^ b < 2 ^ 32 := hb ▸ x.isLt
    exact ⟨b, Nat.le_of_lt_succ ((Nat.pow_lt_pow_iff_right (by decide)).1 hlt), hb⟩
  · rintro ⟨b, -, hb⟩
    have hx : x ≠ 0 := by
      rintro rfl
      exact absurd hb.symm (Nat.two_pow_pos b).ne'
    exact ⟨hx, (and_sub_one_eq_zero_iff hx).2 ⟨b, hb⟩⟩

theorem Params.legal_iff (p : Params) :
    p.Legal ↔ (∃ b ≤ 31, p.btbSize.toNat = 2 ^ b) ∧ 1 ≤ p.bhrSize.toNat ∧
      p.bhrSize.toNat ≤ 32 ∧ (p.variant = .tournament → p.metaReset ≤ 7) := by
  rw [Params.Legal, ← and_assoc, btbSize_pow_two_iff]

end Sys2Proof
end

section
/-! PROOFS. RESET and construction (70_reset_and_hazards.md R150, R151; 60_exceptions.md R131). -/

namespace Sys2Proof.Machine

/-- RESET leaves nothing of the state but the parameters and the host's side. -/
theorem clear_congr {s s' : State} (hcfg : s'.cfg = s.cfg) (hq : s'.pending = s.pending)
    (hres : s'.results = s.results) : s'.clear = s.clear := by
  rw [State.clear_eq, State.clear_eq, hcfg, hq, hres]

theorem exec_reset (s : State) : exec .reset s = .next s.clear := rfl

/-- Settles O30: row, clock edge and words all give `State.clear`. -/
theorem resetRestoresEveryElement : Obligations.ResetRestoresEveryElement := by
  intro s
  refine ⟨s.clear, exec_reset s, rfl, State.clear_phtAt s, State.clear_btbAt s,
    fun _ => ⟨State.clear_lhtAt s, State.clear_lphtAt s, State.clear_metaAt s⟩, rfl, rfl, rfl,
    fun s' hcfg hq hres => ?_, exec_reset s.clear, fun p hp => clockEdge_of_rst s hp,
    fun x hx => decode_of_decodeOp_ok (decodeOp_of_opc_two hx) _⟩
  rw [exec_reset, clear_congr hcfg hq hres]

/-- All checks pass. -/
theorem construct_of_legal {p : Params} (h : p.Legal) : ∃ t, construct p = .next t := by
  obtain ⟨hz, hp, h1, h32, hm⟩ := h
  rw [construct, dif_neg (btbSize_toNat_ne_zero hz), if_neg (not_not.2 hp), dif_neg (by omega),
    dif_neg (by omega), if_neg fun h => absurd (hm h.1) (Nat.not_le.2 h.2)]
  exact ⟨_, rfl⟩

/-- An instance has passed every check. -/
theorem legal_of_construct {p : Params} {t : State} (h : construct p = .next t) : p.Legal := by
  unfold construct at h
  split_ifs at h with hz hp h0 h32 hm hv
  all_goals
    exact ⟨fun hzero => hz (congrArg BitVec.toNat hzero), not_not.1 hp, Nat.one_le_iff_ne_zero.2 h0,
      Nat.not_lt.1 h32, fun hv' => Nat.not_lt.1 fun h7 => hm ⟨hv', h7⟩⟩

/-- An instance has the parameters given, META_RESET where there is a META table. -/
theorem construct_cfg {p : Params} {t : State} (h : construct p = .next t) :
    t.cfg.variant = p.variant ∧ t.cfg.B = Nat.log2 p.btbSize.toNat ∧ t.cfg.H = p.bhrSize.toNat ∧
      (p.variant = .tournament → t.cfg.metaReset = BitVec.ofNat 3 p.metaReset) := by
  unfold construct at h
  split_ifs at h with hz hp h0 h32 hm hv
  · cases h
    exact ⟨rfl, rfl, rfl, fun _ => rfl⟩
  · cases h
    exact ⟨rfl, rfl, rfl, fun hv' => absurd hv' hv⟩

/-- Settles O33: the checks are the legality conditions, and an instance that passes them has its parameters in `cfg`. -/
theorem constructionAcceptsExactlyLegal : Obligations.ConstructionAcceptsExactlyLegal := by
  intro p
  rw [Params.wf_iff_legal]
  refine ⟨⟨construct_of_legal, fun ⟨t, ht⟩ => legal_of_construct ht⟩, p.legal_iff, fun t ht => ?_⟩
  obtain ⟨⟨b, -, hb⟩, -, -, hmeta⟩ := (p.legal_iff).1 (legal_of_construct ht)
  obtain ⟨hv, hB, hH, hm⟩ := construct_cfg ht
  obtain ⟨c, rfl⟩ := construct_next ht
  refine ⟨hv, ?_, hH, fun htour => ?_, rfl, rfl, rfl⟩
  · rw [hB, hb, Nat.log2_two_pow]
  · have hle := hmeta htour
    rw [hm htour, BitVec.toNat_ofNat, Nat.mod_eq_of_lt (by omega)]

end Sys2Proof.Machine
end

section
/-! PROOFS. Which PCs and histories the indices and tags tell apart (40_indexing_and_primitives.md R80 to R85, R96). -/

namespace Sys2Proof.Machine

theorem word_lt (pc : Word) : pc.toNat / 4 < 2 ^ 30 := by
  have := pc.isLt
  omega

/-- With a history within its width the mask only cuts the word (40_indexing_and_primitives.md R83). -/
theorem phtIndex_of_ghr_lt {c : Config} {g : Word} (h : g.toNat < 2 ^ c.H) (pc : Word) :
    phtIndex c g pc = pc.toNat / 4 % 2 ^ c.H ^^^ g.toNat := by
  rw [phtIndex_eq, Nat.xor_mod_two_pow, Nat.mod_eq_of_lt h]

/-- Settles O11: the masks and shifts as remainders and quotients, each below the size of its table. -/
theorem indicesAreMaskedIntoRange : Obligations.IndicesAreMaskedIntoRange := by
  intro c g pc e
  have hword := word_lt pc
  refine ⟨word_toNat pc, ?_, btbIndex_eq c pc, Nat.le_sub_one_of_lt (btbIndex_lt c pc), ?_, fun hB => ?_,
    phtIndex_eq c g pc, Nat.le_sub_one_of_lt (phtIndex_lt c g pc), fun hg => phtIndex_of_ghr_lt hg pc,
    lhtIndex_eq c pc, lphtIndex_eq e, Nat.le_sub_one_of_lt (lphtIndex_lt e)⟩
  · rw [word_toNat]
    exact Nat.le_sub_one_of_lt hword
  · rw [btbIndex_eq]
    exact (Nat.mod_le _ _).trans (Nat.le_sub_one_of_lt hword)
  · rw [btbIndex_eq, hB, Nat.pow_zero, Nat.mod_one]

/-- Quotient and remainder together are the number. -/
theorem mod_eq_and_div_eq_iff {a b n : Nat} : (a % n = b % n ∧ a / n = b / n) ↔ a = b := by
  refine ⟨fun ⟨hmod, hdiv⟩ => ?_, fun h => ⟨by rw [h], by rw [h]⟩⟩
  rw [← Nat.div_add_mod a n, hmod, hdiv, Nat.div_add_mod]

section Sites

variable (c : Config) (p q : Word)

theorem btbIndex_tagG_iff :
    (btbIndex c p = btbIndex c q ∧ tagG c p = tagG c q) ↔ p.toNat / 4 = q.toNat / 4 := by
  rw [btbIndex_eq, btbIndex_eq, ← BitVec.toNat_inj, tagG_toNat, tagG_toNat]
  exact mod_eq_and_div_eq_iff

theorem btbIndex_tagT_iff :
    (btbIndex c p = btbIndex c q ∧ tagT c p = tagT c q) ↔
      p.toNat / 4 % 2 ^ c.B = q.toNat / 4 % 2 ^ c.B ∧ p.toNat / 2 ^ c.B = q.toNat / 2 ^ c.B := by
  rw [btbIndex_eq, btbIndex_eq, ← BitVec.toNat_inj, tagT_toNat, tagT_toNat]

/-- With `B >= 2` the TOURNAMENT tag reaches down into the word, and with the index it is the word. -/
theorem btbIndex_tagT_iff_of_two_le (hB : 2 ≤ c.B) :
    (btbIndex c p = btbIndex c q ∧ tagT c p = tagT c q) ↔ p.toNat / 4 = q.toNat / 4 := by
  refine ⟨fun h => ?_, fun h => ⟨btbIndex_congr h c, tagT_congr h hB⟩⟩
  obtain ⟨hmod, hdiv⟩ := (btbIndex_tagT_iff c p q).1 h
  refine mod_eq_and_div_eq_iff.1 ⟨hmod, ?_⟩
  rw [Nat.div_right_comm, hdiv, Nat.div_right_comm]

end Sites

/-- Settles O14: index and tag are remainder and quotient; the TOURNAMENT tag keeps bits of the byte offset for small `B`. -/
theorem tagsTellSitesApart : Obligations.TagsTellSitesApart := by
  intro c p q
  refine ⟨tagG_toNat c p, tagT_toNat c p, ?_, btbIndex_tagG_iff c p q,
    btbIndex_tagT_iff_of_two_le c p q, fun hB => ?_, fun hB => ?_⟩
  · rw [tagG_toNat, btbIndex_eq, Nat.div_add_mod']
  · rw [btbIndex_tagT_iff, hB]
    omega
  · rw [btbIndex_tagT_iff, hB, ← BitVec.toNat_inj]
    omega

/-- Settles O15: within the width the index is an xor, and xor with one history is injective. -/
theorem phtAliasingIsXorOfHistory : Obligations.PhtAliasingIsXorOfHistory := by
  intro c g g' p q hg hg'
  rw [phtIndex_of_ghr_lt hg, phtIndex_of_ghr_lt hg', phtIndex_of_ghr_lt hg]
  exact ⟨Iff.rfl, Nat.xor_left_inj⟩

end Sys2Proof.Machine
end

section
/-! PROOFS. A history holds the latest outcomes, the newest in bit 0 (10_state.md R22, R24). -/

namespace Sys2Proof.Machine

theorem shiftH_toNat_eq_shiftIn (c : Config) (g : Word) (k : Bool) :
    (shiftH c g k).toNat = shiftIn c.H k g.toNat := shiftH_toNat c g k

theorem shift8_toNat_eq_shiftIn (l : LocalHistory) (k : Bool) :
    (shift8 l k).toNat = shiftIn 8 k l.toNat := shift8_toNat l k

theorem shiftIn_testBit (w : Nat) (k : Bool) (x j : Nat) :
    (shiftIn w k x).testBit j = (decide (j < w) && if j = 0 then k else x.testBit (j - 1)) := by
  rw [shiftIn, Nat.testBit_mod_two_pow, ← Nat.bit_val]
  cases j with
  | zero => rw [Nat.testBit_bit_zero, if_pos rfl]
  | succ j => rw [Nat.testBit_bit_succ, if_neg (Nat.succ_ne_zero j), Nat.add_sub_cancel]

/-- The history `x` of `w` bits after the outcomes `ks`, the oldest first. -/
def historyAfter (w : Nat) (ks : List Bool) (x : Nat) : Nat := ks.foldl (fun y k => shiftIn w k y) x

theorem historyAfter_cons (w : Nat) (k : Bool) (ks : List Bool) (x : Nat) :
    historyAfter w (k :: ks) x = historyAfter w ks (shiftIn w k x) := rfl

/-- Bit `j` is the outcome `j` before the last; past the outcomes it is the old bit moved up. -/
theorem historyAfter_testBit {w : Nat} (ks : List Bool) (x : Nat) {j : Nat} (hj : j < w) :
    (historyAfter w ks x).testBit j = (ks.reverse[j]?).getD (x.testBit (j - ks.length)) := by
  induction ks generalizing x with
  | nil => rfl
  | cons k ks ih =>
    rw [historyAfter_cons, ih, shiftIn_testBit, List.reverse_cons, List.length_cons,
      List.getElem?_append, List.length_reverse]
    rcases Nat.lt_or_ge j ks.length with hlt | hge
    · simp [hlt]
    · obtain ⟨d, rfl⟩ := Nat.exists_eq_add_of_le hge
      have hd : d < w := by omega
      cases d with
      | zero => simp [hd]
      | succ d => simp [hd, Nat.add_sub_add_left]

/-- The bits of a word that holds such a history. -/
theorem getLsbD_of_toNat_eq_historyAfter {n w : Nat} {h h0 : BitVec n} {ks : List Bool}
    (hh : h.toNat = historyAfter w ks h0.toNat) {j : Nat} (hj : j < w) :
    h.getLsbD j = (ks.reverse[j]?).getD (h0.getLsbD (j - ks.length)) := by
  rw [BitVec.getLsbD, hh, historyAfter_testBit ks _ hj, BitVec.getLsbD]

theorem applyOp_toOp (s : State) (u : Resolved) :
    applyOp s u.toOp = update s u.pc u.nextPc u.taken := rfl

/-- UPDATEs of a GSHARE instance shift all their outcomes into `GHR` (41_gshare.md R101). -/
theorem applyOps_updates_ghr (us : List Resolved) {s : State} (hv : s.cfg.variant = .gshare) :
    (applyOps s (us.map Resolved.toOp)).ghr.toNat =
      historyAfter s.cfg.H (us.map Resolved.taken) s.ghr.toNat := by
  induction us generalizing s with
  | nil => rfl
  | cons u us ih =>
    have hv' : (update s u.pc u.nextPc u.taken).cfg.variant = .gshare := by rw [update_cfg, hv]
    rw [List.map_cons, applyOps_cons, applyOp_toOp, ih hv', update_cfg, update_of_gshare hv,
      updateG_ghr, shiftH_toNat_eq_shiftIn, List.map_cons, historyAfter_cons]

/-- Settles O20: `GHR` is the history after the outcomes of all UPDATEs. -/
theorem historyHoldsLatestOutcomes : Obligations.HistoryHoldsLatestOutcomes := by
  refine fun us s hv => ⟨_, runOps_eq _ s, fun k hk => ?_⟩
  have hbit := getLsbD_of_toNat_eq_historyAfter (applyOps_updates_ghr us hv) hk
  rwa [← List.map_reverse, List.length_map] at hbit

/-- The UPDATEs of the index `i` (40_indexing_and_primitives.md R81). -/
def updatesAt (c : Config) (i : Nat) (us : List Resolved) : List Resolved :=
  us.filter (fun u => u.pc.toNat / 4 % 2 ^ c.B = i)

theorem updatesAt_cons_self {c : Config} {i : Nat} {u : Resolved} (h : btbIndex c u.pc = i)
    (us : List Resolved) : updatesAt c i (u :: us) = u :: updatesAt c i us := by
  rw [btbIndex_eq] at h
  exact List.filter_cons_of_pos (decide_eq_true h)

theorem updatesAt_cons_other {c : Config} {i : Nat} {u : Resolved} (h : btbIndex c u.pc ≠ i)
    (us : List Resolved) : updatesAt c i (u :: us) = updatesAt c i us := by
  rw [btbIndex_eq] at h
  exact List.filter_cons_of_neg (by simpa using h)

/-- UPDATEs of a TOURNAMENT instance shift into `LHT[i]` the outcomes of the index `i` (42_tournament.md R111). -/
theorem applyOps_updates_lhtAt (i : Nat) (us : List Resolved) {s : State}
    (hv : s.cfg.variant = .tournament) :
    ((applyOps s (us.map Resolved.toOp)).lhtAt i).toNat =
      historyAfter 8 ((updatesAt s.cfg i us).map Resolved.taken) (s.lhtAt i).toNat := by
  induction us generalizing s with
  | nil => rfl
  | cons u us ih =>
    have hv' : (update s u.pc u.nextPc u.taken).cfg.variant = .tournament := by rw [update_cfg, hv]
    rw [List.map_cons, applyOps_cons, applyOp_toOp, ih hv', update_cfg, update_of_tournament hv,
      updateT_lhtAt, lhtIndex_eq]
    by_cases hi : btbIndex s.cfg u.pc = i
    · rw [if_pos hi.symm, updatesAt_cons_self hi, List.map_cons, historyAfter_cons,
        shift8_toNat_eq_shiftIn]
    · rw [if_neg (Ne.symm hi), updatesAt_cons_other hi]

/-- Settles O28: `LHT[i]` is the history after the outcomes of its own UPDATEs. -/
theorem localHistoryHoldsOutcomesOfItsIndex : Obligations.LocalHistoryHoldsOutcomesOfItsIndex := by
  refine fun us s i hv => ⟨_, runOps_eq _ s, fun k hk => ?_⟩
  have hbit := getLsbD_of_toNat_eq_historyAfter (applyOps_updates_lhtAt i us hv) hk
  rwa [← List.map_reverse, List.length_map] at hbit

end Sys2Proof.Machine
end

section
/-! PROOFS. How META moves (42_tournament.md R112, R116). -/

namespace Sys2Proof.Machine

/-- When exactly one of two counters is judged correct, by their values before the UPDATE (40_indexing_and_primitives.md R97). -/
theorem only_first_correct_iff (c d : Counter2) (k : Bool) :
    (postCorrect c k = true ∧ postCorrect d k = false) ↔
      if k then 1 ≤ c.toNat ∧ d.toNat = 0 else c.toNat ≤ 2 ∧ d.toNat = 3 := by
  revert c d k
  decide

/-- The judgement of R97 on the two counters before the UPDATE is the table of R112. -/
theorem metaNext_postCorrect_toNat (m : Counter3) (g l : Counter2) (taken : Bool) :
    (metaNext m (postCorrect g taken) (postCorrect l taken)).toNat =
      if taken then
        if 1 ≤ g.toNat ∧ l.toNat = 0 then min (m.toNat + 1) 7
        else if g.toNat = 0 ∧ 1 ≤ l.toNat then m.toNat - 1 else m.toNat
      else
        if g.toNat ≤ 2 ∧ l.toNat = 3 then min (m.toNat + 1) 7
        else if g.toNat = 3 ∧ l.toNat ≤ 2 then m.toNat - 1 else m.toNat := by
  simp only [metaNext_toNat, only_first_correct_iff]
  cases taken <;> simp [and_comm]

/-- Settles O24: META of the index moves by the judgement of the two counters before the UPDATE. -/
theorem metaMovesByCountersBeforeUpdate : Obligations.MetaMovesByCountersBeforeUpdate := by
  intro s pc nextPc taken hv bi g l m
  have hmeta := updateT_metaAt_btbIndex s pc nextPc taken
  rw [btbIndex_eq, phtIndex_eq, lphtIndexOf_eq] at hmeta
  refine ⟨_, exec_updateT_of_tournament hv pc nextPc taken, ?_⟩
  rw [hmeta, metaNext_postCorrect_toNat]

/-- One UPDATE of R116: META of the site steps down, META of another site stays. -/
theorem updateT_metaAt_toNat_of_local_only {s : State} {i : Nat} {pc n : Word} {k : Bool}
    (h : btbIndex s.cfg pc = i → postCorrect (s.lphtAt (lphtIndexOf s pc)) k = true ∧
      postCorrect (s.phtAt (phtIndex s.cfg s.ghr pc)) k = false) :
    ((updateT s pc n k).metaAt i).toNat =
      if btbIndex s.cfg pc = i then (s.metaAt i).toNat - 1 else (s.metaAt i).toNat := by
  rw [updateT_metaAt]
  by_cases hi : btbIndex s.cfg pc = i
  · obtain ⟨hl, hg⟩ := h hi
    rw [if_pos hi.symm, if_pos hi, hl, hg]
    exact metaDown_toNat _
  · rw [if_neg (Ne.symm hi), if_neg hi]

/-- In a run of R116 META of the site goes down by one for each of its UPDATEs. -/
theorem applyOps_updates_metaAt (i : Nat) (us : List Resolved) {s : State}
    (hv : s.cfg.variant = .tournament) (h : localRightGlobalWrong i us s) :
    ((applyOps s (us.map Resolved.toOp)).metaAt i).toNat =
      (s.metaAt i).toNat - (updatesAt s.cfg i us).length := by
  induction us generalizing s with
  | nil => rfl
  | cons u us ih =>
    obtain ⟨hjudged, hrest⟩ := h
    have hv' : (update s u.pc u.nextPc u.taken).cfg.variant = .tournament := by rw [update_cfg, hv]
    have hsite : btbIndex s.cfg u.pc = i → postCorrect (s.lphtAt (lphtIndexOf s u.pc)) u.taken = true ∧
        postCorrect (s.phtAt (phtIndex s.cfg s.ghr u.pc)) u.taken = false := by
      rintro rfl
      rw [lphtIndexOf_eq, ← btbIndex_eq, phtIndex_eq]
      exact hjudged (btbIndex_eq ..).symm
    rw [List.map_cons, applyOps_cons, applyOp_toOp, ih hv' hrest, update_cfg, update_of_tournament hv,
      updateT_metaAt_toNat_of_local_only hsite]
    by_cases hi : btbIndex s.cfg u.pc = i
    · rw [if_pos hi, updatesAt_cons_self hi, List.length_cons]
      omega
    · rw [if_neg hi, updatesAt_cons_other hi]

/-- At 3 or less META selects the local counter (42_tournament.md R110). -/
theorem directionT_of_metaAt_le_three {s : State} {i : Nat} {pc : Word}
    (hpc : pc.toNat / 4 % 2 ^ s.cfg.B = i) (h : (s.metaAt i).toNat ≤ 3) :
    directionT s pc = decide (2 ≤ (s.lphtAt (s.lhtAt i).toNat).toNat) := by
  subst hpc
  have hlt : (s.metaAt (btbIndex s.cfg pc)).toNat < 4 := by
    rw [btbIndex_eq]
    exact Nat.lt_succ_of_le h
  rw [directionT_eq, selectedCounter_of_lt_four hlt, dir2, lphtIndexOf_eq]

/-- Settles O27: META of the site counts down, and at 3 or less it selects the local counter. -/
theorem metaConvergesToLocalPredictor : Obligations.MetaConvergesToLocalPredictor := by
  intro i us s hv h
  have hcfg := applyOps_cfg s (us.map Resolved.toOp)
  exact ⟨_, runOps_eq _ s, applyOps_updates_metaAt i us hv h,
    fun hle pc hpc => directionT_of_metaAt_le_three (by rwa [hcfg]) hle⟩

end Sys2Proof.Machine
end

section
/-! PROOFS. When a GSHARE instance predicts a target: BTB correctness, the fallback (41_gshare.md R103) and the run of taken
UPDATEs from reset (R102). -/

namespace Sys2Proof.Machine

/-- An entry of the PC and a counter of at least 2 give the target. -/
theorem exec_predictG_of_hit {u : State} {q target : Word} (hv : u.cfg.variant = .gshare)
    (hentry : u.btbAt (q.toNat / 4 % 2 ^ u.cfg.B) = BtbEntry.mk true target (tagG u.cfg q))
    (hc : 2 ≤ (u.phtAt ((q.toNat / 4 ^^^ u.ghr.toNat) % 2 ^ u.cfg.H)).toNat) :
    exec (.predictG q) u = .next { u with results := u.results ++ [target] } := by
  rw [exec_predictG_of_gshare hv, predictG_eq, hentry, if_pos ⟨hc, rfl, tagG_toNat u.cfg q⟩, State.emit]

/-- An invalid entry, another tag or a counter below 2 each give the wrapped sum. -/
theorem exec_predictG_fallback {u : State} {q : Word} (hv : u.cfg.variant = .gshare)
    (h : (u.btbAt (q.toNat / 4 % 2 ^ u.cfg.B)).valid = false ∨
      (u.btbAt (q.toNat / 4 % 2 ^ u.cfg.B)).tag.toNat ≠ q.toNat / 4 / 2 ^ u.cfg.B ∨
      (u.phtAt ((q.toNat / 4 ^^^ u.ghr.toNat) % 2 ^ u.cfg.H)).toNat < 2) :
    exec (.predictG q) u =
      .next { u with results := u.results ++ [BitVec.ofNat 32 (q.toNat + 4)] } := by
  rw [exec_predictG_of_gshare hv, predictG_eq, if_neg, State.emit]
  rintro ⟨hc, hvalid, htag⟩
  rcases h with hinvalid | hother | hlow
  · exact Bool.false_ne_true (hinvalid.symm.trans hvalid)
  · exact hother htag
  · exact Nat.not_le.2 hlow hc

/-- Settles O19: the kept entry is the one the UPDATE wrote, with the tag of its own PC. -/
theorem btbCorrectnessAndFallbackG : Obligations.BtbCorrectnessAndFallbackG := by
  refine ⟨fun s t u p target hv h hcfg hkept => ?_, fun u q hv h => exec_predictG_fallback hv h⟩
  rw [exec_updateG_of_gshare hv] at h
  cases h
  rw [updateG_cfg] at hcfg
  have hentry : u.btbAt (p.toNat / 4 % 2 ^ u.cfg.B) = BtbEntry.mk true target (tagG u.cfg p) := by
    rw [hcfg, hkept, ← btbIndex_eq, updateG_btbAt, if_pos ⟨rfl, rfl⟩]
  rw [← hcfg] at hv ⊢
  refine ⟨exec_predictG_of_hit hv hentry, fun q hindex hword => ?_⟩
  refine exec_predictG_fallback hv (.inr (.inl fun htag => hword ?_))
  rw [hindex, hentry, tagG_toNat] at htag
  exact mod_eq_and_div_eq_iff.1 ⟨hindex, htag.symm⟩

/-! ### N taken UPDATEs of one PC from reset (41_gshare.md R102) -/

/-- An empty history after `n` taken outcomes. -/
theorem shiftIn_true_iterate_zero_eq {w : Nat} (hw : 0 < w) (n : Nat) :
    (shiftIn w true)^[n] 0 = 2 ^ min n w - 1 := by
  rcases Nat.le_total n w with h | h
  · rw [shiftIn_true_iterate_zero h, Nat.min_eq_left h]
  · rw [shiftIn_true_iterate_of_le hw h, Nat.min_eq_right h]

/-- The counter of the PC at a history of `m` taken outcomes. -/
def runIndex (c : Config) (pc : Word) (m : Nat) : Nat := (pc.toNat / 4 ^^^ (2 ^ m - 1)) % 2 ^ c.H

/-- Histories of different length use different counters. -/
theorem runIndex_inj {c : Config} {pc : Word} {m k : Nat} (hm : m ≤ c.H) (hk : k ≤ c.H) :
    runIndex c pc m = runIndex c pc k ↔ m = k := by
  have hlt : ∀ {j}, j ≤ c.H → 2 ^ j - 1 < 2 ^ c.H := fun hj =>
    (Nat.sub_lt (Nat.two_pow_pos _) Nat.one_pos).trans_le (Nat.pow_le_pow_right (by decide) hj)
  refine ⟨fun h => ?_, fun h => by rw [h]⟩
  rw [runIndex, runIndex, Nat.xor_mod_two_pow, Nat.xor_mod_two_pow, Nat.xor_right_inj,
    Nat.mod_eq_of_lt (hlt hm), Nat.mod_eq_of_lt (hlt hk)] at h
  have hmpos := Nat.two_pow_pos m
  have hkpos := Nat.two_pow_pos k
  exact Nat.pow_right_injective (Nat.le_refl 2) (by omega : 2 ^ m = 2 ^ k)

/-- What holds after `n` taken UPDATEs of one PC from reset. While the history fills, each of its values is met once and
trains a counter of its own; when it is full, all further UPDATEs train one counter. -/
structure AfterTaken (c : Config) (pc target : Word) (n : Nat) (t : State) : Prop where
  cfg : t.cfg = c
  ghr : t.ghr.toNat = 2 ^ min n c.H - 1
  counter : ∀ m ≤ c.H, (t.phtAt (runIndex c pc m)).toNat =
    if m < c.H then min (n - m) 1 else min (n - c.H) 3
  entry : 1 ≤ n → t.btbAt (btbIndex c pc) = BtbEntry.mk true target (tagG c pc)

section Run

variable {c : Config} {pc target : Word} {n : Nat} {t : State}

theorem afterTaken_resetOf : AfterTaken c pc target 0 (State.resetOf c) where
  cfg := rfl
  ghr := by simp
  counter m _ := by simp
  entry h := absurd h (by decide)

theorem AfterTaken.phtIndex_eq (h : AfterTaken c pc target n t) :
    (pc.toNat / 4 ^^^ t.ghr.toNat) % 2 ^ c.H = runIndex c pc (min n c.H) := by
  rw [h.ghr, runIndex]

/-- One more taken UPDATE shifts the history and trains the counter at the history before it. -/
theorem AfterTaken.updateG (h : AfterTaken c pc target n t) :
    AfterTaken c pc target (n + 1) (updateG t pc target true) where
  cfg := by rw [updateG_cfg, h.cfg]
  ghr := by
    rw [updateG_ghr, h.cfg, shiftH_toNat_eq_shiftIn, h.ghr, ← shiftIn_true_iterate_zero_eq c.H_pos,
      ← Function.iterate_succ_apply' (shiftIn c.H true), shiftIn_true_iterate_zero_eq c.H_pos]
  counter m hm := by
    have hcur := Nat.min_le_right n c.H
    have hm' := h.counter m hm
    rw [updateG_phtAt_toNat, Machine.phtIndex_eq, h.cfg, h.phtIndex_eq]
    by_cases heq : m = min n c.H
    · rw [if_pos (by rw [heq]), if_pos rfl, ← heq, hm']
      split_ifs <;> omega
    · rw [if_neg (fun hi => heq ((runIndex_inj hm hcur).1 hi)), hm']
      split_ifs <;> omega
  entry _ := by rw [updateG_btbAt, h.cfg, if_pos ⟨rfl, rfl⟩]

theorem AfterTaken.runInstrs_replicate (hv : c.variant = .gshare) (h : AfterTaken c pc target n t)
    (k : Nat) : ∃ t', runInstrs (List.replicate k (.updateG pc target true)) t = .next t' ∧
      AfterTaken c pc target (n + k) t' := by
  induction k generalizing n t with
  | zero => exact ⟨t, rfl, h⟩
  | succ k ih =>
    have hexec := exec_updateG_of_gshare (s := t) (by rw [h.cfg, hv]) pc target true
    obtain ⟨t', hrun, ht'⟩ := ih h.updateG
    refine ⟨t', ?_, by rwa [Nat.add_right_comm] at ht'⟩
    simp only [List.replicate_succ, runInstrs, hexec, hrun]

end Run

/-- Settles O18: the counter PREDICT reads is 2 or more only when the full history has been trained twice. -/
theorem takenRunReachesTargetAfterHPlusTwo : Obligations.TakenRunReachesTargetAfterHPlusTwo := by
  intro c pc target n hv
  obtain ⟨t, hrun, ht⟩ := (afterTaken_resetOf (c := c) (pc := pc) (target := target)).runInstrs_replicate hv n
  rw [Nat.zero_add] at ht
  have hvt : t.cfg.variant = .gshare := by rw [ht.cfg, hv]
  have hcounter := ht.counter (min n c.H) (Nat.min_le_right ..)
  rw [← ht.phtIndex_eq] at hcounter
  refine ⟨t, hrun, ht.ghr, ?_, fun hn => exec_predictG_of_hit hvt ?_ ?_,
    fun hn => exec_predictG_fallback hvt (.inr (.inr ?_))⟩
  · exact (ht.counter c.H (Nat.le_refl _)).trans (if_neg (Nat.lt_irrefl _))
  · rw [ht.cfg, ← btbIndex_eq]
    exact ht.entry (by omega)
  · rw [ht.cfg, hcounter, if_neg (by omega)]
    omega
  · rw [ht.cfg, hcounter]
    split_ifs <;> omega

end Sys2Proof.Machine
end
